-- ==== Sys2Proof/Word.lean ====
section
/-!
DEFINITION. Word.lean: the widths the block's ports and storage have (spec/00_scope.md R12, spec/30_encoding.md R80).
-/

namespace Sys2Proof

/-- One byte of a frame (R70). -/
abbrev Byte := BitVec 8

/-- A 32-bit port value: `cmd`, `wdata`, `rdata` (R80). -/
abbrev Word := BitVec 32

/-- A time in milliseconds. The spec gives it TIME_W bits, 16 to 32 (R10); it is held in the widest of
these, and `Machine.truncTime` cuts a port value to the TIME_W bits the block has (log entry 8). -/
abbrev Time := BitVec 32

/-- A channel number, which is also a cache entry's sender: the 4-bit CH field (R81, R28). -/
abbrev ChanNo := BitVec 4

/-- The 16-bit event vector of one command (R211). -/
abbrev Ev := BitVec 16

end Sys2Proof
end

