-- ==== Sys2Proof/Machine/Checksum.lean ====
section
/-!
DEFINITION. Machine/Checksum.lean: the checksum unit (spec/40_checksum.md R100, R101), two functions over byte strings.
-/

namespace Sys2Proof.Machine

/-- The sum of the bytes over the naturals, before any reduction (R15). -/
def byteSum (bs : List Byte) : Nat := (bs.map BitVec.toNat).sum

/-- `sum8`: that sum mod 256 (R15). -/
def sum8 (bs : List Byte) : Nat := byteSum bs % 256

/-- `compute`: the byte that brings the sum to 0 mod 256 (R100). -/
def compute (bs : List Byte) : Byte := BitVec.ofNat 8 ((256 - sum8 bs) % 256)

/-- `validate`: the sum of the whole string is 0 mod 256 (R101). -/
def validate (bs : List Byte) : Bool := sum8 bs == 0

end Sys2Proof.Machine
end

