-- ==== Sys2Proof/Machine/Flags.lean ====
section
/-!
DEFINITION. Machine/Flags.lean: the event vector (spec/60_exceptions.md R211). The block keeps no flag (R36): a command's
events start at 0 and leave with its response.
-/

namespace Sys2Proof.Machine

/-- Bit 0: a valid frame was emitted. -/
def evFrame : Ev := 0x0001#16

/-- Bit 1: a length-complete candidate failed its checksum. -/
def evCsumErr : Ev := 0x0002#16

/-- Bit 2: the buffer filled before it was length-complete. -/
def evOverflow : Ev := 0x0004#16

/-- Bit 3: a partial frame aged past TIMEOUT_MS. -/
def evTimeout : Ev := 0x0008#16

/-- Bit 4: a byte was dropped while hunting. -/
def evDrop : Ev := 0x0010#16

/-- Bit 5: DEDUP found a matching entry. -/
def evDup : Ev := 0x0020#16

/-- Bit 6: DEDUP evicted entry 0. -/
def evEvict : Ev := 0x0040#16

/-- Bit 7: DEDUP found no output frame. -/
def evNoframe : Ev := 0x0080#16

/-- Bit 8: the command word is illegal. -/
def evIllegal : Ev := 0x0100#16

/-- No event: what every command's vector starts from. -/
def evNone : Ev := 0x0000#16

/-- `raise EV_X` (R15): set the event's bit. -/
def raise (ev x : Ev) : Ev := ev ||| x

end Sys2Proof.Machine
end

