-- ==== Sys2Proof/Config.lean ====
section
/-!
DEFINITION. Config.lean: the implementation parameters of spec/00_scope.md R6 to R12, their ranges and defaults.
The spec calls them neither state nor constants of the block but "configuration of each step" (R39), so the model
carries one such record in State, where no step changes it, and holds for every value in range (log entry 1).
-/

namespace Sys2Proof

/-- The parameters of R12. -/
structure Config where
  /-- Number of frame-assembler channels (R6). -/
  nch : Nat
  /-- Capacity in bytes of each channel's buffer (R7). -/
  cap : Nat
  /-- The byte that may start a frame (R8). -/
  marker0 : Byte
  /-- The second marker byte, which is reported and never tested (R8, R124). -/
  marker1 : Byte
  /-- Capacity in entries of the deduplication cache (R9). -/
  n : Nat
  /-- Width in bits of `now` and of every stored time (R10). -/
  timeW : Nat
  /-- Reset value of TIMEOUT_MS (R11). -/
  timeoutReset : Time
  deriving DecidableEq, Repr

namespace Config

/-- Every parameter lies in the range R12 gives it. -/
structure Ok (cfg : Config) : Prop where
  nch_pos : 1 ≤ cfg.nch
  nch_le : cfg.nch ≤ 16
  cap_ge : 4 ≤ cfg.cap
  cap_le : cfg.cap ≤ 256
  n_pos : 1 ≤ cfg.n
  n_le : cfg.n ≤ 256
  timeW_ge : 16 ≤ cfg.timeW
  timeW_le : cfg.timeW ≤ 32
  timeoutReset_lt : cfg.timeoutReset.toNat < 2 ^ cfg.timeW

/-- The default of every parameter (R12). -/
def default : Config :=
  { nch := 2, cap := 256, marker0 := 0x55#8, marker1 := 0xAA#8, n := 100, timeW := 32,
    timeoutReset := 5000#32 }

/-- The largest payload length a channel can accept (R12, R131). -/
def lmax (cfg : Config) : Nat := cfg.cap - 4

end Config

end Sys2Proof
end

