-- ==== Sys2Proof/Syntax.lean ====
section
/-!
DEFINITION. Syntax.lean: the 12 commands of spec/30_encoding.md R82 (one constructor per row of
spec/opcode_table.json) and the control and status registers of spec/10_state.md R30.
-/

namespace Sys2Proof

/-- The control and status registers of R30. A CSR number outside the map is no register: the decoder refuses it. -/
inductive Csr where
  | timeoutMs
  | capr
  | dcapr
  | nchr
  | dcountr
  | markerr
  | timewr
  | chLen
  | chTlast
  deriving DecidableEq, Repr

/-- The commands of R82. `c` is CH, `i` is IDX as an entry index, `r` is IDX as a CSR number, `b` is DATA as a
received byte and `k` is DATA as a byte offset (R85). -/
inductive Instr where
  | nop
  | feed (c : ChanNo) (b : Byte)
  | tick (c : ChanNo)
  | dedup (c : ChanNo)
  | dmeta (i : BitVec 8)
  | dtime (i : BitVec 8)
  | dbyte (i k : BitVec 8)
  | fmeta (c : ChanNo)
  | fbyte (c : ChanNo) (k : BitVec 8)
  | bbyte (c : ChanNo) (k : BitVec 8)
  | csrr (c : ChanNo) (r : Csr)
  | csrw (c : ChanNo) (r : Csr)
  deriving DecidableEq, Repr

end Sys2Proof
end

