-- ==== Sys2Proof/WellFormed.lean ====
section
/-!
DEFINITION. WellFormed.lean: which instructions a legal word can spell under given parameters, the last column of
spec/30_encoding.md R83 ("CH condition") with the scopes and access rights of spec/10_state.md R30.
-/

namespace Sys2Proof

/-- The registers R30 lists as "per channel"; the others are "global". -/
def Csr.perChannel : Csr → Bool
  | .chLen | .chTlast => true
  | .timeoutMs | .capr | .dcapr | .nchr | .dcountr | .markerr | .timewr => false

/-- The CH and CSR conditions of R83: a channel below NCH; CH = 0 for a global CSR; only TIMEOUT_MS is written. -/
def Instr.wellFormed (cfg : Config) : Instr → Bool
  | .nop => true
  | .feed c _ => decide (c.toNat < cfg.nch)
  | .tick c => decide (c.toNat < cfg.nch)
  | .dedup c => decide (c.toNat < cfg.nch)
  | .dmeta _ => true
  | .dtime _ => true
  | .dbyte _ _ => true
  | .fmeta c => decide (c.toNat < cfg.nch)
  | .fbyte c _ => decide (c.toNat < cfg.nch)
  | .bbyte c _ => decide (c.toNat < cfg.nch)
  | .csrr c r => if r.perChannel then decide (c.toNat < cfg.nch) else decide (c = 0#4)
  | .csrw c r => decide (r = .timeoutMs) && decide (c = 0#4)

end Sys2Proof
end

