-- ==== Sys2Proof/Decode.lean ====
section
/-!
DEFINITION. Decode.lean: the command word (spec/30_encoding.md R81 to R86), read and written. The decoder is total on
32-bit words: it answers an instruction or the reason of R84 for which the word is illegal. The encoder after it is
written from the same table.
-/

namespace Sys2Proof

/-! ## The fields of R81 -/

/-- OP, bits 31:28. -/
def opField (w : Word) : BitVec 4 := w.extractLsb' 28 4

/-- CH, bits 27:24. -/
def chField (w : Word) : BitVec 4 := w.extractLsb' 24 4

/-- IDX, bits 23:16. -/
def idxField (w : Word) : BitVec 8 := w.extractLsb' 16 8

/-- RSV, bits 15:8. -/
def rsvField (w : Word) : BitVec 8 := w.extractLsb' 8 8

/-- DATA, bits 7:0. -/
def dataField (w : Word) : BitVec 8 := w.extractLsb' 0 8

/-- The five fields side by side, most significant first, RSV being 0. -/
def packWord (op ch : BitVec 4) (idx data : BitVec 8) : Word := op ++ ch ++ idx ++ 0#8 ++ data

/-! ## CSR numbers (R30) -/

/-- The register a CSR number names; none for the unimplemented numbers of R35. -/
def Csr.ofNum (i : BitVec 8) : Option Csr :=
  match i.toNat with
  | 0x00 => some .timeoutMs
  | 0x01 => some .capr
  | 0x02 => some .dcapr
  | 0x03 => some .nchr
  | 0x04 => some .dcountr
  | 0x05 => some .markerr
  | 0x06 => some .timewr
  | 0x10 => some .chLen
  | 0x11 => some .chTlast
  | _ => none

/-- The number of a register. -/
def Csr.num : Csr → BitVec 8
  | .timeoutMs => 0x00#8
  | .capr => 0x01#8
  | .dcapr => 0x02#8
  | .nchr => 0x03#8
  | .dcountr => 0x04#8
  | .markerr => 0x05#8
  | .timewr => 0x06#8
  | .chLen => 0x10#8
  | .chTlast => 0x11#8

/-! ## Legality of operands (R84 (d), (e)), decided from the word and the parameters alone (R86) -/

/-- The channel exists: CH < NCH. -/
def chanExists (cfg : Config) (c : ChanNo) : Bool := decide (c.toNat < cfg.nch)

/-- The CH operand suits the register: CH < NCH for a per-channel register, CH = 0 for a global one (R30). -/
def csrReadable (cfg : Config) (c : ChanNo) : Csr → Bool
  | .timeoutMs => c == 0#4
  | .capr => c == 0#4
  | .dcapr => c == 0#4
  | .nchr => c == 0#4
  | .dcountr => c == 0#4
  | .markerr => c == 0#4
  | .timewr => c == 0#4
  | .chLen => chanExists cfg c
  | .chTlast => chanExists cfg c

/-- The register can be written: only TIMEOUT_MS is RW (R30, R32 to R34). -/
def csrWritable : Csr → Bool
  | .timeoutMs => true
  | _ => false

/-- Why a word is illegal: the letters of R84. -/
inductive IllegalWord where
  /-- (a) OP is 0xC, 0xD, 0xE or 0xF. -/
  | reservedOpcode
  /-- (b) RSV ≠ 0. -/
  | reservedField
  /-- (c) a field the command does not use is non-zero. -/
  | unusedField
  /-- (d) the CH condition of R83 fails. -/
  | badChannel
  /-- (e) the CSR number is unimplemented (R35). -/
  | unimplementedCsr
  /-- (e) a CSRW of a read-only register. -/
  | readOnlyCsr
  deriving DecidableEq, Repr

/-- The instruction, if the fields it does not use are zero (R84 (c)). -/
def ifUnusedZero (z : Bool) (i : Instr) : Except IllegalWord Instr :=
  if z then .ok i else .error .unusedField

/-- The CSR commands, once their unused field is known to be zero: the number must be implemented. -/
def ifCsr (i : BitVec 8) (f : Csr → Instr) : Except IllegalWord Instr :=
  match Csr.ofNum i with
  | some r => .ok (f r)
  | none => .error .unimplementedCsr

/-- The tests (a), (b), (c) and the first part of (e) of R84, in that order: what the word spells, its channel not yet
looked at. -/
def decodeFields (w : Word) : Except IllegalWord Instr :=
  let ch := chField w
  let idx := idxField w
  let data := dataField w
  if 0xC ≤ (opField w).toNat then .error .reservedOpcode
  else if rsvField w ≠ 0#8 then .error .reservedField
  else
    match (opField w).toNat with
    | 0x0 => ifUnusedZero (ch == 0#4 && idx == 0#8 && data == 0#8) .nop
    | 0x1 => ifUnusedZero (idx == 0#8) (.feed ch data)
    | 0x2 => ifUnusedZero (idx == 0#8 && data == 0#8) (.tick ch)
    | 0x3 => ifUnusedZero (idx == 0#8 && data == 0#8) (.dedup ch)
    | 0x4 => ifUnusedZero (ch == 0#4 && data == 0#8) (.dmeta idx)
    | 0x5 => ifUnusedZero (ch == 0#4 && data == 0#8) (.dtime idx)
    | 0x6 => ifUnusedZero (ch == 0#4) (.dbyte idx data)
    | 0x7 => ifUnusedZero (idx == 0#8 && data == 0#8) (.fmeta ch)
    | 0x8 => ifUnusedZero (idx == 0#8) (.fbyte ch data)
    | 0x9 => ifUnusedZero (idx == 0#8) (.bbyte ch data)
    | 0xA => if data == 0#8 then ifCsr idx (.csrr ch) else .error .unusedField
    | 0xB => if data == 0#8 then ifCsr idx (.csrw ch) else .error .unusedField
    | _ => .error .reservedOpcode

/-- The tests (d) and the rest of (e) of R84 on what a word spells: the reason it is illegal, if it is. -/
def operandFault (cfg : Config) : Instr → Option IllegalWord
  | .nop => none
  | .feed c _ => if chanExists cfg c then none else some .badChannel
  | .tick c => if chanExists cfg c then none else some .badChannel
  | .dedup c => if chanExists cfg c then none else some .badChannel
  | .dmeta _ => none
  | .dtime _ => none
  | .dbyte _ _ => none
  | .fmeta c => if chanExists cfg c then none else some .badChannel
  | .fbyte c _ => if chanExists cfg c then none else some .badChannel
  | .bbyte c _ => if chanExists cfg c then none else some .badChannel
  | .csrr c r => if csrReadable cfg c r then none else some .badChannel
  | .csrw c r =>
    if csrReadable cfg c r then (if csrWritable r then none else some .readOnlyCsr) else some .badChannel

/-- What a 32-bit word spells under the parameters (R83), or why it is illegal (R84). -/
def decode (cfg : Config) (w : Word) : Except IllegalWord Instr :=
  match decodeFields w with
  | .error e => .error e
  | .ok i =>
    match operandFault cfg i with
    | none => .ok i
    | some e => .error e

/-- The legality test of R86. -/
def legal (cfg : Config) (w : Word) : Bool :=
  match decode cfg w with
  | .ok _ => true
  | .error _ => false

/-- The word of an instruction (R83, R87): its opcode and its operands in the fields that R82 gives it, every other
bit 0. -/
def encode : Instr → Word
  | .nop => packWord 0x0#4 0#4 0#8 0#8
  | .feed c b => packWord 0x1#4 c 0#8 b
  | .tick c => packWord 0x2#4 c 0#8 0#8
  | .dedup c => packWord 0x3#4 c 0#8 0#8
  | .dmeta i => packWord 0x4#4 0#4 i 0#8
  | .dtime i => packWord 0x5#4 0#4 i 0#8
  | .dbyte i k => packWord 0x6#4 0#4 i k
  | .fmeta c => packWord 0x7#4 c 0#8 0#8
  | .fbyte c k => packWord 0x8#4 c 0#8 k
  | .bbyte c k => packWord 0x9#4 c 0#8 k
  | .csrr c r => packWord 0xA#4 c r.num 0#8
  | .csrw c r => packWord 0xB#4 c r.num 0#8

/-- The command word of a table row's bits: the word's low `nbits` bits, every bit above them 0. -/
def tableWord (nbits w : Nat) : Word := BitVec.ofNat 32 (w % 2 ^ nbits)

/-- The instruction the decoder reads from a table row's bits, under the default parameters. -/
def decodeTableWord (nbits w : Nat) : Option Instr :=
  match decode Config.default (tableWord nbits w) with
  | .ok i => some i
  | .error _ => none

end Sys2Proof
end

