-- ==== Sys2Proof/Machine/State.lean ====
section
/-!
DEFINITION. Machine/State.lean: the state record of spec/10_state.md R22 and R28, element by element, the host port of
spec/30_encoding.md R80, and the reset values of R38.
-/

namespace Sys2Proof.Machine

/-- One channel: a frame assembler with its output holding register (R22 to R26). -/
structure Channel where
  /-- BUF[c][0..CAP−1], the accumulation buffer; bytes at index LEN[c] and above are stale (R23). -/
  buf : List Byte
  /-- LEN[c], the bytes accumulated; 0 is an empty, hunting channel (R24). -/
  len : Nat
  /-- TLAST[c], the time of the last FEED (R25). -/
  tlast : Time
  /-- OFRAME[c][0..CAP−1], the last frame emitted; bytes at index OLEN[c] and above are stale (R26). -/
  oframe : List Byte
  /-- OLEN[c], that frame's length (R26). -/
  olen : Nat
  /-- OVALID[c]: OFRAME[c] holds a frame (R26). -/
  ovalid : Bool
  deriving DecidableEq, Repr

/-- One entry of the deduplication cache (R28). -/
structure Entry where
  /-- SND, the channel whose frame made the entry. -/
  snd : ChanNo
  /-- KLEN, the length of the stored frame. -/
  klen : Nat
  /-- KEY[0..CAP−1]; KEY[0..KLEN−1] is meaningful. -/
  key : List Byte
  /-- TS, the last-seen timestamp. -/
  ts : Time
  deriving DecidableEq, Repr

/-- One presentation of the host port's inputs (R80): what the block sees at one step. `now` is a TIME_W-bit port:
it is read through `State.time`, which ignores the bits above (log entry 8). With `rst` asserted the command is not
executed and the block is reset (R240). -/
structure HostIn where
  cmd : Word
  now : Time
  wdata : Word
  rst : Bool
  deriving DecidableEq, Repr

/-- The block's state S (R22), with the parameters it was built with (log entry 1), its port (log entries 2 and 3) and
what the host is going to present. -/
structure State where
  /-- The parameters of R12: fixed, no step writes them. -/
  cfg : Config
  /-- The NCH channels, channel 0 first. -/
  chans : List Channel
  /-- TIMEOUT_MS, the receive timeout (R31). -/
  timeoutMs : Time
  /-- DCOUNT, the number of cache entries in use (R27). -/
  dcount : Nat
  /-- DENT[0..N−1], index 0 oldest; entries at index DCOUNT and above are unused (R27, R28). -/
  dent : List Entry
  /-- The input ports, as presented with the command being executed (R80). -/
  inp : HostIn
  /-- The output port `ev`: the event vector of the last command (R211). -/
  ev : Ev
  /-- The output port `rdata`: the read result of the last command (R80). -/
  rdata : Word
  /-- What the host presents next, first to last (R17, R21). -/
  queue : List HostIn
  deriving DecidableEq, Repr

/-- The reasons a step can stop with a fault: there is none, since the block never traps, halts or enters an error
state (R210). Every error is an event of the command that finds it. Safe. -/
inductive Fault where
  deriving DecidableEq, Repr

/-- The reasons a step can be refused. -/
inductive Refusal where
  /-- Raised by `exec` alone, by name, for an instruction that has no meaning yet: no instruction of this model.
  Safe. -/
  | notModelled (mnemonic : String)
  deriving DecidableEq, Repr

/-- A channel after reset (R38): empty, no output frame. The contents of the two byte arrays are unspecified by R38 and
read as zero here (DESIGN CHOICE, log entry 5). -/
def Channel.reset (cfg : Config) : Channel :=
  { buf := List.replicate cfg.cap 0#8, len := 0, tlast := 0#32,
    oframe := List.replicate cfg.cap 0#8, olen := 0, ovalid := false }

/-- A cache entry after reset: unspecified by R38, zero here (DESIGN CHOICE, log entry 6). -/
def Entry.reset (cfg : Config) : Entry :=
  { snd := 0#4, klen := 0, key := List.replicate cfg.cap 0#8, ts := 0#32 }

/-- The input ports while the host presents nothing: the all-zero word is NOP (DESIGN CHOICE, log entry 3). -/
def HostIn.quiet : HostIn := { cmd := 0#32, now := 0#32, wdata := 0#32, rst := false }

/-- The block with given parameters right after reset (R38), nothing presented to it. -/
def State.resetOf (cfg : Config) : State :=
  { cfg := cfg
    chans := List.replicate cfg.nch (Channel.reset cfg)
    timeoutMs := cfg.timeoutReset
    dcount := 0
    dent := List.replicate cfg.n (Entry.reset cfg)
    inp := HostIn.quiet
    ev := 0#16
    rdata := 0#32
    queue := [] }

/-- The block with the default parameters (R12) right after reset. -/
def State.reset : State := State.resetOf Config.default

end Sys2Proof.Machine
end

