-- ==== Sys2Proof/Machine/Operands.lean ====
section
/-!
DEFINITION. Machine/Operands.lean: what a command's operands reach (spec/20_memory.md R51): a channel by CH, a byte of a
buffer, output frame or key by its offset, a cache entry by IDX, a register by its CSR number. A read past the used
part answers 0 and is no error.
-/

namespace Sys2Proof.Machine

/-- The channel operand exists: CH < NCH (R83). -/
def State.hasChan (s : State) (c : ChanNo) : Bool := chanExists s.cfg c

/-- Channel c. (A state with fewer than NCH channels, which no run reaches, answers an empty one: log entry 15.) -/
def State.chan (s : State) (c : ChanNo) : Channel := s.chans.getD c.toNat (Channel.reset s.cfg)

/-- Channel c replaced. -/
def State.setChan (s : State) (c : ChanNo) (ch : Channel) : State :=
  { s with chans := s.chans.set c.toNat ch }

/-- The TIME_W low bits of a 32-bit value (R10, R31). -/
def truncTime (cfg : Config) (v : Word) : Time := BitVec.ofNat 32 (v.toNat % 2 ^ cfg.timeW)

/-- The time input of the command being executed: a port of TIME_W bits (R80). -/
def State.time (s : State) : Time := truncTime s.cfg s.inp.now

/-- Byte k of the frame in progress, 0 at LEN[c] and above (R184). -/
def Channel.bufByte (ch : Channel) (k : Nat) : Byte := if k < ch.len then ch.buf.getD k 0#8 else 0#8

/-- Byte k of the last emitted frame, 0 at OLEN[c] and above (R183). -/
def Channel.frameByte (ch : Channel) (k : Nat) : Byte := if k < ch.olen then ch.oframe.getD k 0#8 else 0#8

/-- The last emitted frame, OFRAME[c][0..OLEN[c]−1]: DEDUP's key (R151). -/
def Channel.frame (ch : Channel) : List Byte := ch.oframe.take ch.olen

/-- Byte k of a key, 0 at KLEN and above (R163). -/
def Entry.keyByte (e : Entry) (k : Nat) : Byte := if k < e.klen then e.key.getD k 0#8 else 0#8

/-- The stored frame, KEY[0..KLEN−1] (R28). -/
def Entry.frame (e : Entry) : List Byte := e.key.take e.klen

/-- Entry i if it is in use (R160). -/
def State.usedEntry (s : State) (i : Nat) : Option Entry := if i < s.dcount then s.dent[i]? else none

/-- A register's value (R30, R188), every bit the map does not list reading 0. -/
def State.csr (s : State) (c : ChanNo) : Csr → Word
  | .timeoutMs => s.timeoutMs
  | .capr => BitVec.ofNat 32 s.cfg.cap
  | .dcapr => BitVec.ofNat 32 s.cfg.n
  | .nchr => BitVec.ofNat 32 s.cfg.nch
  | .dcountr => BitVec.ofNat 32 s.dcount
  | .markerr => 0#16 ++ s.cfg.marker1 ++ s.cfg.marker0
  | .timewr => BitVec.ofNat 32 s.cfg.timeW
  | .chLen => BitVec.ofNat 32 (s.chan c).len
  | .chTlast => (s.chan c).tlast

end Sys2Proof.Machine
end

