-- ==== Sys2Proof/Machine/Ops.lean ====
section
/-!
DEFINITION. Machine/Ops.lean: the operations commands share. The block has no trap entry and no return from one
(spec/60_exceptions.md R217, R218): the one answer to a word it cannot execute is `State.illegal` (R214).
-/

namespace Sys2Proof.Machine

/-- The outcome of one command or step. -/
abbrev Out := Host.Outcome State Fault Refusal

/-! ## Responses -/

/-- The command ends with this event vector and read result on the output ports (R80, R211). -/
def State.respond (s : State) (ev : Ev) (rdata : Word) : State := { s with ev := ev, rdata := rdata }

/-- An illegal command: EV_ILLEGAL, rdata 0, and nothing else (R214). -/
def State.illegal (s : State) : State := s.respond evIllegal 0#32

/-! ## Byte arrays -/

/-- The low bytes of an array overwritten by `new`; the bytes past it stay as they were (log entry 7). -/
def writeLow (old new : List Byte) : List Byte := new ++ old.drop new.length

/-! ## The receive timeout (R15, R121) -/

/-- `elapsed(now, t) = (now − t) mod 2^TIME_W` (R15). -/
def elapsed (cfg : Config) (now t : Time) : Nat := (now - t).toNat % 2 ^ cfg.timeW

/-- `timed_out(c)`: the buffer is not empty and strictly more than TIMEOUT_MS has elapsed (R121). -/
def Channel.timedOut (cfg : Config) (timeoutMs now : Time) (ch : Channel) : Bool :=
  decide (0 < ch.len) && decide (timeoutMs.toNat < elapsed cfg now ch.tlast)

/-- The buffer emptied, its bytes left stale (R130). -/
def Channel.discard (ch : Channel) : Channel := { ch with len := 0 }

/-- The step FEED and TICK share: a timed-out partial frame is discarded (R121). -/
def Channel.timeoutTest (cfg : Config) (timeoutMs now : Time) (ch : Channel) : Channel × Ev :=
  if ch.timedOut cfg timeoutMs now then (ch.discard, raise evNone evTimeout) else (ch, evNone)

/-! ## The host port (R17, R80, R240) -/

/-- The next presentation latched on the input ports; none if the host presents nothing. -/
def State.accept (s : State) : Option State :=
  match s.queue with
  | [] => none
  | p :: rest => some { s with inp := p, queue := rest }

/-- `rst` asserted: every state element takes its reset value, with no event and no rdata (R240). The parameters and
the port inputs are not state of the block and stay. -/
def State.applyReset (s : State) : State :=
  { State.resetOf s.cfg with inp := s.inp, queue := s.queue }

/-- A command word placed at the head of what the host presents, with no reset; its time and write data are those of
the presentation it stands in for, or the ports' present values if there is none. -/
def State.presentWord (s : State) (w : Word) : State :=
  match s.queue with
  | [] => { s with queue := [{ cmd := w, now := s.inp.now, wdata := s.inp.wdata, rst := false }] }
  | p :: rest => { s with queue := { p with cmd := w, rst := false } :: rest }

end Sys2Proof.Machine
end

