-- ==== Sys2Proof/Machine/Assembler.lean ====
section
/-!
DEFINITION. Machine/Assembler.lean: the frame assembler commands FEED and TICK (spec/41_assembler.md).
-/

namespace Sys2Proof.Machine

/-- `BUF[c][LEN[c]] <- b; LEN[c] <- LEN[c] + 1` (R125). -/
def Channel.append (ch : Channel) (b : Byte) : Channel :=
  { ch with buf := ch.buf.set ch.len b, len := ch.len + 1 }

/-- Length-complete: `LEN[c] >= 3 and LEN[c] >= zext(BUF[c][2]) + 4`, over the naturals (R126, R16). -/
def Channel.complete (ch : Channel) : Bool :=
  decide (3 ≤ ch.len) && decide ((ch.buf.getD 2 0#8).toNat + 4 ≤ ch.len)

/-- The frame in progress, BUF[c][0..LEN[c]−1] (R23); of a complete channel, the candidate F (R126). -/
def Channel.content (ch : Channel) : List Byte := ch.buf.take ch.len

/-- F emitted into the output holding register (R126, R26). -/
def Channel.emit (ch : Channel) (f : List Byte) : Channel :=
  { ch with oframe := writeLow ch.oframe f, olen := f.length, ovalid := true }

/-- FEED's steps 5 and 6, after the append: completeness with checksum, then overflow (R126, R127, R128). -/
def Channel.settle (cfg : Config) (ch : Channel) (ev : Ev) : Channel × Ev :=
  if ch.complete then
    if validate ch.content then ((ch.emit ch.content).discard, raise ev evFrame)
    else (ch.discard, raise ev evCsumErr)
  else if ch.len = cfg.cap then (ch.discard, raise ev evOverflow)
  else (ch, ev)

/-- FEED on one channel, the pseudocode of R120: timeout test, time of last byte, hunting, append, then `settle`. -/
def Channel.feed (cfg : Config) (timeoutMs now : Time) (b : Byte) (ch : Channel) : Channel × Ev :=
  let r := ch.timeoutTest cfg timeoutMs now
  let ch1 : Channel := { r.1 with tlast := now }
  if ch1.len = 0 ∧ b ≠ cfg.marker0 then (ch1, raise r.2 evDrop)
  else (ch1.append b).settle cfg r.2

/-- `FEED c, b` (R120). -/
def execFeed (c : ChanNo) (b : Byte) (s : State) : Out :=
  if s.hasChan c then
    let r := (s.chan c).feed s.cfg s.timeoutMs s.time b
    .next ((s.setChan c r.1).respond r.2 0#32)
  else .next s.illegal

/-- `TICK c` (R135). -/
def execTick (c : ChanNo) (s : State) : Out :=
  if s.hasChan c then
    let r := (s.chan c).timeoutTest s.cfg s.timeoutMs s.time
    .next ((s.setChan c r.1).respond r.2 0#32)
  else .next s.illegal

end Sys2Proof.Machine
end

