-- ==== Sys2Proof/Machine/Dedup.lean ====
section
/-!
DEFINITION. Machine/Dedup.lean: the deduplication cache and its commands DEDUP, DMETA, DTIME and DBYTE
(spec/42_dedup.md).
-/

namespace Sys2Proof.Machine

/-- Entry equality of R153: sender, length, and every byte. -/
def Entry.holds (e : Entry) (c : ChanNo) (key : List Byte) : Bool :=
  e.snd == c && e.klen == key.length && e.key.take key.length == key

/-- The linear scan over the entries in use, index 0 upward, stopping at the first match (R153). -/
def State.scan (s : State) (c : ChanNo) (key : List Byte) : Option Nat :=
  (s.dent.take s.dcount).findIdx? (fun e => e.holds c key)

/-- A slot of the cache given a new entry `{SND: c, KLEN: |K|, KEY: K, TS: now}` (R150); the key bytes past |K| stay
as the slot had them (log entry 7). -/
def Entry.record (slot : Entry) (c : ChanNo) (key : List Byte) (now : Time) : Entry :=
  { snd := c, klen := key.length, key := writeLow slot.key key, ts := now }

/-- A match at index i: its timestamp is refreshed in place (R154). -/
def State.refreshEntry (s : State) (i : Nat) : State :=
  { s with dent := s.dent.modify i (fun e => { e with ts := s.time }) }

/-- Insert at the end of a cache that is not full (R156). -/
def State.insertEntry (s : State) (c : ChanNo) (key : List Byte) : State :=
  { s with dent := s.dent.modify s.dcount (fun e => e.record c key s.time), dcount := s.dcount + 1 }

/-- Evict entry 0 of a full cache, move every other entry down by one and write the new one at index N − 1 (R157). -/
def State.evictEntry (s : State) (c : ChanNo) (key : List Byte) : State :=
  let slot := s.dent.getD (s.cfg.n - 1) (Entry.reset s.cfg)
  { s with dent := s.dent.drop 1 ++ [slot.record c key s.time] }

/-- seenOrRecord(sender, frameBytes), the part of R150 after the test for a frame. -/
def State.seenOrRecord (s : State) (c : ChanNo) (key : List Byte) : State :=
  match s.scan c key with
  | some i => (s.refreshEntry i).respond (raise evNone evDup) (BitVec.ofNat 32 i)
  | none =>
    if s.dcount < s.cfg.n then (s.insertEntry c key).respond evNone (BitVec.ofNat 32 s.dcount)
    else (s.evictEntry c key).respond (raise evNone evEvict) (BitVec.ofNat 32 (s.cfg.n - 1))

/-- `DEDUP c` (R150). -/
def execDedup (c : ChanNo) (s : State) : Out :=
  if s.hasChan c then
    if (s.chan c).ovalid then .next (s.seenOrRecord c (s.chan c).frame)
    else .next (s.respond (raise evNone evNoframe) 0#32)
  else .next s.illegal

/-- `DMETA i` (R161): rdata is `{1'b1, 3'b000, SND[3:0], 15'b0, KLEN[8:0]}`. -/
def execDmeta (i : BitVec 8) (s : State) : Out :=
  match s.usedEntry i.toNat with
  | some e => .next (s.respond evNone (1#1 ++ 0#3 ++ e.snd ++ 0#15 ++ BitVec.ofNat 9 e.klen))
  | none => .next (s.respond evNone 0#32)

/-- `DTIME i` (R162). -/
def execDtime (i : BitVec 8) (s : State) : Out :=
  match s.usedEntry i.toNat with
  | some e => .next (s.respond evNone e.ts)
  | none => .next (s.respond evNone 0#32)

/-- `DBYTE i, k` (R163). -/
def execDbyte (i k : BitVec 8) (s : State) : Out :=
  match s.usedEntry i.toNat with
  | some e => .next (s.respond evNone ((e.keyByte k.toNat).setWidth 32))
  | none => .next (s.respond evNone 0#32)

end Sys2Proof.Machine
end

