-- ==== Sys2Proof/Machine/Readout.lean ====
section
/-!
DEFINITION. Machine/Readout.lean: NOP, the frame and buffer readouts FMETA, FBYTE and BBYTE, and the register commands
CSRR and CSRW (spec/43_readout_csr.md). None of them runs the timeout test (R180).
-/

namespace Sys2Proof.Machine

/-- `NOP` (R181). -/
def execNop (s : State) : Out := .next (s.respond evNone 0#32)

/-- `FMETA c` (R182): rdata is `{OVALID[c], 22'b0, OLEN[c][8:0]}`. -/
def execFmeta (c : ChanNo) (s : State) : Out :=
  if s.hasChan c then
    let ch := s.chan c
    .next (s.respond evNone (BitVec.ofBool ch.ovalid ++ 0#22 ++ BitVec.ofNat 9 ch.olen))
  else .next s.illegal

/-- `FBYTE c, k` (R183). -/
def execFbyte (c : ChanNo) (k : BitVec 8) (s : State) : Out :=
  if s.hasChan c then .next (s.respond evNone (((s.chan c).frameByte k.toNat).setWidth 32))
  else .next s.illegal

/-- `BBYTE c, k` (R184). -/
def execBbyte (c : ChanNo) (k : BitVec 8) (s : State) : Out :=
  if s.hasChan c then .next (s.respond evNone (((s.chan c).bufByte k.toNat).setWidth 32))
  else .next s.illegal

/-- `CSRR c, i` (R188). -/
def execCsrr (c : ChanNo) (r : Csr) (s : State) : Out :=
  if csrReadable s.cfg c r then .next (s.respond evNone (s.csr c r))
  else .next s.illegal

/-- `CSRW c, i` with wdata (R189). -/
def execCsrw (c : ChanNo) (r : Csr) (s : State) : Out :=
  match r, c == 0#4 with
  | .timeoutMs, true => .next (State.respond { s with timeoutMs := truncTime s.cfg s.inp.wdata } evNone 0#32)
  | _, _ => .next s.illegal

end Sys2Proof.Machine
end

