-- ==== Sys2Proof/Machine/Dispatch.lean ====
section
/-!
DEFINITION. Machine/Dispatch.lean: what each command does, one arm per constructor of Instr.
-/

namespace Sys2Proof.Machine

def exec (i : Instr) (s : State) : Host.Outcome State Fault Refusal :=
  match i with
  | .nop => Sys2Proof.Machine.execNop s
  | .feed c b => Sys2Proof.Machine.execFeed c b s
  | .tick c => Sys2Proof.Machine.execTick c s
  | .dedup c => Sys2Proof.Machine.execDedup c s
  | .dmeta e => Sys2Proof.Machine.execDmeta e s
  | .dtime e => Sys2Proof.Machine.execDtime e s
  | .dbyte e k => Sys2Proof.Machine.execDbyte e k s
  | .fmeta c => Sys2Proof.Machine.execFmeta c s
  | .fbyte c k => Sys2Proof.Machine.execFbyte c k s
  | .bbyte c k => Sys2Proof.Machine.execBbyte c k s
  | .csrr c r => Sys2Proof.Machine.execCsrr c r s
  | .csrw c r => Sys2Proof.Machine.execCsrw c r s

end Sys2Proof.Machine
end

