-- ==== Sys2Proof/Machine/Step.lean ====
section
/-!
DEFINITION. Machine/Step.lean: one step of the block (spec/00_scope.md R17). The block fetches nothing (R21, R58): a step
takes the next presentation of the host.
-/

namespace Sys2Proof.Machine

/-- One step: with nothing presented the block holds its state (R224); with `rst` asserted it is reset and the command
presented is not executed (R240); otherwise the word is executed if it is legal, and reported if it is not (R214). -/
def step (s : State) : Host.Outcome State Fault Refusal :=
  match s.accept with
  | none => .next s
  | some s1 =>
    if s1.inp.rst then .next s1.applyReset
    else
      match decode s1.cfg s1.inp.cmd with
      | .ok i => exec i s1
      | .error _ => .next s1.illegal

/-- The state in which the host presents a table row's word next. -/
def State.withFetchWord (s : State) (nbits w : Nat) : State := s.presentWord (tableWord nbits w)

end Sys2Proof.Machine
end

