-- ==== Sys2Proof/Safety.lean ====
section
/-!
DEFINITION. Safety.lean: the terms claims use: the invariant of reached states (spec/10_state.md R22 to R29), what of a state
a command can see (R23, R26, R28), the legality cases of R84 written on the bits of a word, runs of several steps, and the
FIFO of (sender, frame) pairs that the cache is (spec/42_dedup.md R155 to R157).
-/

namespace Sys2Proof.Machine

/-! ## Frames -/

/-- A frame a channel may emit (R134): it starts with MARKER0, its length is its length byte + 4 and at most CAP, and its
bytes sum to 0 mod 256. -/
structure ValidFrame (cfg : Config) (f : List Byte) : Prop where
  marker : f.getD 0 0#8 = cfg.marker0
  length_eq : f.length = (f.getD 2 0#8).toNat + 4
  length_le : f.length ≤ cfg.cap
  sum_zero : sum8 f = 0

/-! ## The invariant -/

/-- The ranges of R22 and the facts of R24, R26 and R129 for one channel. -/
structure Channel.Inv (cfg : Config) (ch : Channel) : Prop where
  buf_length : ch.buf.length = cfg.cap
  oframe_length : ch.oframe.length = cfg.cap
  len_lt : ch.len < cfg.cap
  tlast_lt : ch.tlast.toNat < 2 ^ cfg.timeW
  starts : 0 < ch.len → ch.buf.getD 0 0#8 = cfg.marker0
  incomplete : 3 ≤ ch.len → ch.len < (ch.buf.getD 2 0#8).toNat + 4
  olen_le : ch.olen ≤ cfg.cap
  invalid_olen : ch.ovalid = false → ch.olen = 0
  valid_frame : ch.ovalid = true → ValidFrame cfg ch.frame

/-- R29 (b) and the ranges of R28 for an entry in use. -/
structure Entry.Inv (cfg : Config) (e : Entry) : Prop where
  snd_lt : e.snd.toNat < cfg.nch
  klen_le : e.klen ≤ cfg.cap
  ts_lt : e.ts.toNat < 2 ^ cfg.timeW
  valid_frame : ValidFrame cfg e.frame

/-- The entries in use, index 0 first (R27). -/
def State.used (s : State) : List Entry := s.dent.take s.dcount

/-- The (sender, frame) pairs in the cache, oldest first (R27, R153). -/
def State.pairs (s : State) : List (ChanNo × List Byte) := s.used.map (fun e => (e.snd, e.frame))

/-- What holds between commands: parameters in range (R12), the ranges of R22 and R28, and R29. -/
structure State.Inv (s : State) : Prop where
  cfg_ok : s.cfg.Ok
  chans_length : s.chans.length = s.cfg.nch
  chans_inv : ∀ ch ∈ s.chans, ch.Inv s.cfg
  timeout_lt : s.timeoutMs.toNat < 2 ^ s.cfg.timeW
  dent_length : s.dent.length = s.cfg.n
  dcount_le : s.dcount ≤ s.cfg.n
  key_length : ∀ e ∈ s.dent, e.key.length = s.cfg.cap
  used_inv : ∀ e ∈ s.used, e.Inv s.cfg
  pairs_nodup : s.pairs.Nodup

/-! ## What a command can see -/

/-- A channel without its stale bytes (R23, R26). -/
structure ChanView where
  content : List Byte
  tlast : Time
  ovalid : Bool
  frame : List Byte
  deriving DecidableEq, Repr

/-- A cache entry without its stale bytes (R28). -/
structure EntryView where
  snd : ChanNo
  frame : List Byte
  ts : Time
  deriving DecidableEq, Repr

/-- A state without stale bytes and unused entries. -/
structure StateView where
  cfg : Config
  chans : List ChanView
  timeoutMs : Time
  cache : List EntryView
  inp : HostIn
  ev : Ev
  rdata : Word
  queue : List HostIn
  deriving DecidableEq, Repr

def Channel.view (ch : Channel) : ChanView :=
  { content := ch.content, tlast := ch.tlast, ovalid := ch.ovalid, frame := ch.frame }

def Entry.view (e : Entry) : EntryView := { snd := e.snd, frame := e.frame, ts := e.ts }

def State.view (s : State) : StateView :=
  { cfg := s.cfg, chans := s.chans.map Channel.view, timeoutMs := s.timeoutMs, cache := s.used.map Entry.view,
    inp := s.inp, ev := s.ev, rdata := s.rdata, queue := s.queue }

/-! ## Illegal words, R84 on the bits -/

/-- R84 (a): a reserved opcode. -/
def IllegalOpcode (w : Word) : Prop := 0xC ≤ (w.extractLsb' 28 4).toNat

/-- R84 (b): RSV is not 0. -/
def IllegalReserved (w : Word) : Prop := w.extractLsb' 8 8 ≠ 0#8

/-- R84 (c): a field that R82 does not list for the command is not 0. -/
def IllegalUnused (w : Word) : Prop :=
  let op := (w.extractLsb' 28 4).toNat
  let ch := (w.extractLsb' 24 4).toNat
  let idx := (w.extractLsb' 16 8).toNat
  let data := (w.extractLsb' 0 8).toNat
  (op = 0x0 ∧ (ch ≠ 0 ∨ idx ≠ 0 ∨ data ≠ 0)) ∨
  (op ∈ [0x1, 0x8, 0x9] ∧ idx ≠ 0) ∨
  (op ∈ [0x2, 0x3, 0x7] ∧ (idx ≠ 0 ∨ data ≠ 0)) ∨
  (op ∈ [0x4, 0x5] ∧ (ch ≠ 0 ∨ data ≠ 0)) ∨
  (op = 0x6 ∧ ch ≠ 0) ∨
  (op ∈ [0xA, 0xB] ∧ data ≠ 0)

/-- R84 (d): the CH condition of R83 fails. -/
def IllegalChannel (cfg : Config) (w : Word) : Prop :=
  let op := (w.extractLsb' 28 4).toNat
  let ch := (w.extractLsb' 24 4).toNat
  let idx := (w.extractLsb' 16 8).toNat
  (op ∈ [0x1, 0x2, 0x3, 0x7, 0x8, 0x9] ∧ cfg.nch ≤ ch) ∨
  (op ∈ [0xA, 0xB] ∧ idx ∈ [0x00, 0x01, 0x02, 0x03, 0x04, 0x05, 0x06] ∧ ch ≠ 0) ∨
  (op ∈ [0xA, 0xB] ∧ idx ∈ [0x10, 0x11] ∧ cfg.nch ≤ ch)

/-- R84 (e): an unimplemented CSR, or a CSRW of a read-only one. -/
def IllegalCsr (w : Word) : Prop :=
  let op := (w.extractLsb' 28 4).toNat
  let idx := (w.extractLsb' 16 8).toNat
  (op ∈ [0xA, 0xB] ∧ idx ∉ [0x00, 0x01, 0x02, 0x03, 0x04, 0x05, 0x06, 0x10, 0x11]) ∨
  (op = 0xB ∧ idx ≠ 0x00)

/-- R84: any of the five. -/
def IsIllegal (cfg : Config) (w : Word) : Prop :=
  IllegalOpcode w ∨ IllegalReserved w ∨ IllegalUnused w ∨ IllegalChannel cfg w ∨ IllegalCsr w

/-! ## Commands that only read -/

/-- The commands R56 lists as changing no state. -/
def readOnly : Instr → Bool
  | .nop | .dmeta _ | .dtime _ | .dbyte _ _ | .fmeta _ | .fbyte _ _ | .bbyte _ _ | .csrr _ _ => true
  | .feed _ _ | .tick _ | .dedup _ | .csrw _ _ => false

/-- The event vectors R213 and R133 allow a legal command to return. -/
def allowedEvents : Instr → List Ev
  | .feed _ _ => [0x0000#16, 0x0010#16, 0x0008#16, 0x0018#16, 0x0001#16, 0x0002#16, 0x0004#16]
  | .tick _ => [0x0000#16, 0x0008#16]
  | .dedup _ => [0x0000#16, 0x0020#16, 0x0040#16, 0x0080#16]
  | .nop | .dmeta _ | .dtime _ | .dbyte _ _ | .fmeta _ | .fbyte _ _ | .bbyte _ _ | .csrr _ _ | .csrw _ _ => [0x0000#16]

/-! ## Runs -/

/-- `k` steps, stopping at the first that answers no next state. -/
def run : Nat → State → Out
  | 0, s => .next s
  | k + 1, s =>
    match step s with
    | .next t => run k t
    | .fault r => .fault r
    | .refused r => .refused r

/-- A byte as the host receives it: its value, the `now` and the `wdata` presented with it. -/
structure Arrival where
  byte : Byte
  now : Time
  wdata : Word
  deriving DecidableEq, Repr

/-- The FEED commands that hand these bytes to channel c, in order (R87, R88: SEND). -/
def feedsOf (c : ChanNo) (xs : List Arrival) : List HostIn :=
  xs.map (fun a => { cmd := encode (.feed c a.byte), now := a.now, wdata := a.wdata, rst := false })

/-- The presentation is a FEED on channel c that is executed (no reset with it). -/
def isFeedOf (cfg : Config) (c : ChanNo) (p : HostIn) : Bool :=
  match p.rst, decode cfg p.cmd with
  | false, .ok (.feed d _) => d == c
  | _, _ => false

/-- The host presents a FEED on channel c next. -/
def State.feedsNext (s : State) (c : ChanNo) : Bool := s.queue.head?.any (isFeedOf s.cfg c)

/-- The step from s to t is a FEED on channel c that emits a frame. -/
structure Emission (c : ChanNo) (s t : State) : Prop where
  feeds : s.feedsNext c = true
  answers : step s = .next t
  emits : t.ev.getLsbD 0 = true

/-- No two successive bytes lie more than TIMEOUT_MS apart. -/
def NoGap (cfg : Config) (timeoutMs : Time) : List Arrival → Prop
  | a :: b :: rest =>
    elapsed cfg (truncTime cfg b.now) (truncTime cfg a.now) ≤ timeoutMs.toNat ∧ NoGap cfg timeoutMs (b :: rest)
  | _ => True

/-! ## The timeout condition -/

/-- `timed_out(c)` of R121: the buffer is not empty and strictly more than TIMEOUT_MS has elapsed since TLAST[c]. -/
abbrev State.TimedOut (s : State) (c : ChanNo) : Prop :=
  0 < (s.chan c).len ∧ s.timeoutMs.toNat < elapsed s.cfg s.time (s.chan c).tlast

/-! ## The cache as a FIFO of pairs -/

/-- seenOrRecord on a sequence of at most n pairs (R154 to R157): a pair that is present stays where it is; a new one goes
to the end, the first leaving if the sequence is full. -/
def fifoRecord {α : Type} [DecidableEq α] (n : Nat) (ps : List α) (p : α) : List α :=
  if p ∈ ps then ps else if ps.length < n then ps ++ [p] else ps.drop 1 ++ [p]

end Sys2Proof.Machine
end

