-- ==== Sys2Proof/Certificates/Slice0/Obligations.lean ====
section
/-!
DEFINITION. Certificates/Slice0/Obligations.lean: the statements for the provers. Each docstring names the rule of spec/ it
formalises, or the section and log entry it rests on.
-/

open Sys2Proof Sys2Proof.Machine

/-! ## The command word (spec/30_encoding.md) -/

/-- Decoding the encoding of a well-formed instruction gives it back, with every operand at every value
(30_encoding.md section 3). -/
def Obligations.DecodeOfEncodeIsIdentity : Prop :=
  ∀ (cfg : Config) (i : Instr), i.wellFormed cfg = true → decode cfg (encode i) = .ok i

/-- A word that decodes is the encoding of what it decodes to, which is well-formed: no bit of a legal word is ignored
(30_encoding.md section 3). -/
def Obligations.EncodeOfDecodeIsIdentity : Prop :=
  ∀ (cfg : Config) (w : Word) (i : Instr), decode cfg w = .ok i → encode i = w ∧ i.wellFormed cfg = true

/-- R83: a word spells a command iff it agrees with the row's match under the row's mask and the row's condition on CH
holds, with the operands of R85. -/
def Obligations.CommandWordsMatchTheTable : Prop :=
  ∀ (cfg : Config) (w : Word) (c : ChanNo) (i k : BitVec 8) (r : Csr),
    (decode cfg w = .ok .nop ↔ w &&& 0xFFFFFFFF#32 = 0x00000000#32) ∧
    (decode cfg w = .ok (.feed c k) ↔ w &&& 0xF0FFFF00#32 = 0x10000000#32 ∧ c.toNat < cfg.nch ∧
      c = w.extractLsb' 24 4 ∧ k = w.extractLsb' 0 8) ∧
    (decode cfg w = .ok (.tick c) ↔ w &&& 0xF0FFFFFF#32 = 0x20000000#32 ∧ c.toNat < cfg.nch ∧
      c = w.extractLsb' 24 4) ∧
    (decode cfg w = .ok (.dedup c) ↔ w &&& 0xF0FFFFFF#32 = 0x30000000#32 ∧ c.toNat < cfg.nch ∧
      c = w.extractLsb' 24 4) ∧
    (decode cfg w = .ok (.dmeta i) ↔ w &&& 0xFF00FFFF#32 = 0x40000000#32 ∧ i = w.extractLsb' 16 8) ∧
    (decode cfg w = .ok (.dtime i) ↔ w &&& 0xFF00FFFF#32 = 0x50000000#32 ∧ i = w.extractLsb' 16 8) ∧
    (decode cfg w = .ok (.dbyte i k) ↔ w &&& 0xFF00FF00#32 = 0x60000000#32 ∧ i = w.extractLsb' 16 8 ∧
      k = w.extractLsb' 0 8) ∧
    (decode cfg w = .ok (.fmeta c) ↔ w &&& 0xF0FFFFFF#32 = 0x70000000#32 ∧ c.toNat < cfg.nch ∧
      c = w.extractLsb' 24 4) ∧
    (decode cfg w = .ok (.fbyte c k) ↔ w &&& 0xF0FFFF00#32 = 0x80000000#32 ∧ c.toNat < cfg.nch ∧
      c = w.extractLsb' 24 4 ∧ k = w.extractLsb' 0 8) ∧
    (decode cfg w = .ok (.bbyte c k) ↔ w &&& 0xF0FFFF00#32 = 0x90000000#32 ∧ c.toNat < cfg.nch ∧
      c = w.extractLsb' 24 4 ∧ k = w.extractLsb' 0 8) ∧
    (decode cfg w = .ok (.csrr c r) ↔ w &&& 0xF000FFFF#32 = 0xA0000000#32 ∧ c = w.extractLsb' 24 4 ∧
      r.num = w.extractLsb' 16 8 ∧ (if r = .chLen ∨ r = .chTlast then c.toNat < cfg.nch else c = 0#4)) ∧
    (decode cfg w = .ok (.csrw c r) ↔ w &&& 0xF000FFFF#32 = 0xB0000000#32 ∧ c = w.extractLsb' 24 4 ∧
      r.num = w.extractLsb' 16 8 ∧ r = .timeoutMs ∧ c = 0#4)

/-- R84 and R214: a word is refused by the decoder iff one of (a) to (e) holds, and a step on such a word raises EV_ILLEGAL,
returns 0 and changes no state; the all-zero word is NOP. (That the word stands at the head of the queue is how the model
presents it, log entry 2.) -/
def Obligations.IllegalWordsChangeNothing : Prop :=
  (∀ (cfg : Config) (w : Word), legal cfg w = false ↔ IsIllegal cfg w) ∧
  (∀ (s : State) (p : HostIn) (rest : List HostIn), s.queue = p :: rest → p.rst = false → IsIllegal s.cfg p.cmd →
    step s = .next { s with inp := p, queue := rest, ev := 0x0100#16, rdata := 0#32 }) ∧
  ∀ cfg : Config, decode cfg 0x00000000#32 = .ok .nop

/-- 10_state.md section 3: the CSR numbers of the map name their registers, and every other number names none. -/
def Obligations.CsrNumbersFollowTheMap : Prop :=
  Csr.ofNum 0x00#8 = some .timeoutMs ∧ Csr.ofNum 0x01#8 = some .capr ∧ Csr.ofNum 0x02#8 = some .dcapr ∧
  Csr.ofNum 0x03#8 = some .nchr ∧ Csr.ofNum 0x04#8 = some .dcountr ∧ Csr.ofNum 0x05#8 = some .markerr ∧
  Csr.ofNum 0x06#8 = some .timewr ∧ Csr.ofNum 0x10#8 = some .chLen ∧ Csr.ofNum 0x11#8 = some .chTlast ∧
  ∀ i : BitVec 8, (0x07 ≤ i.toNat ∧ i.toNat ≤ 0x0F) ∨ 0x12 ≤ i.toNat → Csr.ofNum i = none

/-- Words of 95_test_vectors.md decode to the commands they are written for there. -/
def Obligations.SpecWordsDecode : Prop :=
  decode .default 0x00000000#32 = .ok .nop ∧
  decode .default 0x100000AA#32 = .ok (.feed 0#4 0xAA#8) ∧
  decode .default 0x31000000#32 = .ok (.dedup 1#4) ∧
  decode .default 0x40010000#32 = .ok (.dmeta 1#8) ∧
  decode .default 0x80000004#32 = .ok (.fbyte 0#4 4#8) ∧
  decode .default 0xA0110000#32 = .ok (.csrr 0#4 .chTlast) ∧
  decode .default 0xB0000000#32 = .ok (.csrw 0#4 .timeoutMs)

/-! ## Steps, reset, the whole machine -/

/-- A step on a legal word is `exec` of the instruction it decodes to, on the state with that presentation on its ports
and the rest of the host's presentations left to come (00_scope.md section 5, log entry 2). -/
def Obligations.StepRunsTheDecodedCommand : Prop :=
  ∀ (s : State) (p : HostIn) (rest : List HostIn) (i : Instr),
    s.queue = p :: rest → p.rst = false → decode s.cfg p.cmd = .ok i →
      step s = exec i { s with inp := p, queue := rest }

/-- A step with `rst` asserted sets every element to its reset value, gives no event and no rdata, and does not execute the
command presented (70_reset_and_hazards.md section 1; that `rst` is a bit of a presentation and that both outputs then read 0 is
the model's choice, log entry 4). The contents of buffers and entries are left out: the spec leaves them unspecified. -/
def Obligations.ResetPresentationResets : Prop :=
  ∀ (s : State) (p : HostIn) (rest : List HostIn), s.queue = p :: rest → p.rst = true →
    ∃ t, step s = .next t ∧ t.cfg = s.cfg ∧ t.chans.length = s.cfg.nch ∧
      (∀ ch ∈ t.chans, ch.len = 0 ∧ ch.tlast = 0#32 ∧ ch.ovalid = false ∧ ch.olen = 0) ∧
      t.timeoutMs = s.cfg.timeoutReset ∧ t.dcount = 0 ∧ t.ev = 0#16 ∧ t.rdata = 0#32 ∧ t.queue = rest

/-- R38 for the state after reset, under every choice of parameters and under the defaults; the read-only CSRs read the
parameter values. -/
def Obligations.ResetStateHoldsTheResetValues : Prop :=
  (∀ cfg : Config, let s := State.resetOf cfg
    s.chans.length = cfg.nch ∧
    (∀ ch ∈ s.chans, ch.len = 0 ∧ ch.tlast = 0#32 ∧ ch.ovalid = false ∧ ch.olen = 0) ∧
    s.timeoutMs = cfg.timeoutReset ∧ s.dcount = 0 ∧
    exec (.csrr 0#4 .capr) s = .next { s with ev := 0#16, rdata := BitVec.ofNat 32 cfg.cap } ∧
    exec (.csrr 0#4 .dcapr) s = .next { s with ev := 0#16, rdata := BitVec.ofNat 32 cfg.n } ∧
    exec (.csrr 0#4 .nchr) s = .next { s with ev := 0#16, rdata := BitVec.ofNat 32 cfg.nch } ∧
    exec (.csrr 0#4 .markerr) s = .next { s with ev := 0#16, rdata := 0#16 ++ cfg.marker1 ++ cfg.marker0 } ∧
    exec (.csrr 0#4 .timewr) s = .next { s with ev := 0#16, rdata := BitVec.ofNat 32 cfg.timeW }) ∧
  State.reset = State.resetOf Config.default ∧ State.reset.timeoutMs = 5000#32 ∧ State.reset.chans.length = 2

/-- With nothing presented a step changes nothing (R224's "Between commands it holds its state indefinitely and does
nothing"; that an empty queue stands for "between commands" is log entry 2). -/
def Obligations.IdleStepHoldsTheState : Prop :=
  ∀ s : State, s.queue = [] → step s = .next s

/-- The block never traps, halts or refuses: every command and every step answers a next state, in every state
(60_exceptions.md section 1). -/
def Obligations.EveryCommandAnswersNext : Prop :=
  (∀ (i : Instr) (s : State), ∃ t, exec i s = .next t) ∧ ∀ s : State, ∃ t, step s = .next t

/-- No command changes the parameters, the ports' inputs or what the host presents next (10_state.md section 1). -/
def Obligations.CommandsKeepParametersAndHostInputs : Prop :=
  ∀ (i : Instr) (s t : State), exec i s = .next t → t.cfg = s.cfg ∧ t.inp = s.inp ∧ t.queue = s.queue

/-- An instruction whose channel or register operand no legal word spells is an illegal command too, in every state (the
model's choice for such a term, log entry 10). -/
def Obligations.IllFormedInstructionsChangeNothing : Prop :=
  ∀ (i : Instr) (s : State), i.wellFormed s.cfg = false →
    exec i s = .next { s with ev := 0x0100#16, rdata := 0#32 }

/-- A legal command answers a next state whose event vector is one of those the command can return (60_exceptions.md section
2 and 41_assembler.md section 1, which the spec marks as derived). -/
def Obligations.LegalCommandsRaiseOnlyTheirEvents : Prop :=
  ∀ (i : Instr) (s : State), s.cfg.Ok → i.wellFormed s.cfg = true →
    ∃ t, exec i s = .next t ∧ t.ev ∈ allowedEvents i

/-- The ranges and facts that hold between commands hold right after reset, for every choice of parameters in range. -/
def Obligations.InvariantHoldsAtReset : Prop :=
  (∀ cfg : Config, cfg.Ok → (State.resetOf cfg).Inv) ∧ State.reset.Inv

/-- Every step keeps the ranges of the state's elements, what a frame in progress looks like, the well-formedness of emitted
frames and the cache's invariants (10_state.md section 2). -/
def Obligations.EveryStepKeepsTheInvariant : Prop :=
  ∀ s t : State, s.Inv → step s = .next t → t.Inv

/-- Stale buffer bytes, stale output bytes, key bytes past KLEN and unused entries change nothing a command can see: two
states that agree on the rest answer states that agree on the rest, with the same events and rdata
(93_implementation_defined.md section 2). -/
def Obligations.StaleBytesAreInvisible : Prop :=
  ∀ s s' : State, s.Inv → s'.Inv → s.view = s'.view →
    ∃ t t', step s = .next t ∧ step s' = .next t' ∧ t.view = t'.view

/-- Only a reset empties the cache or withdraws an output frame, and only CSRW changes TIMEOUT_MS (70_reset_and_hazards.md
section 1). -/
def Obligations.OnlyResetWithdraws : Prop :=
  ∀ (s t : State) (p : HostIn) (rest : List HostIn), s.queue = p :: rest → p.rst = false → step s = .next t →
    s.dcount ≤ t.dcount ∧ (∀ c : ChanNo, (s.chan c).ovalid = true → (t.chan c).ovalid = true) ∧
    (t.timeoutMs ≠ s.timeoutMs → p.cmd = 0xB0000000#32)

/-- FEED is the only command that increases LEN[c], by one; FEED and TICK on c are the only ones that set it to 0
(10_state.md section 2). -/
def Obligations.OnlyFeedGrowsAndOnlyFeedOrTickEmpties : Prop :=
  ∀ (i : Instr) (s t : State) (d : ChanNo), exec i s = .next t →
    ((s.chan d).len < (t.chan d).len → (∃ b, i = .feed d b) ∧ (t.chan d).len = (s.chan d).len + 1) ∧
    ((s.chan d).len ≠ 0 → (t.chan d).len = 0 → (∃ b, i = .feed d b) ∨ i = .tick d)

/-- The output holding registers change only in a FEED that raises EV_FRAME, and only those of its channel (10_state.md
section 2). -/
def Obligations.OnlyEmissionWritesTheHoldingRegister : Prop :=
  ∀ (i : Instr) (s t : State), exec i s = .next t →
    (t.ev.getLsbD 0 = false → ∀ d : ChanNo, (t.chan d).oframe = (s.chan d).oframe ∧
      (t.chan d).olen = (s.chan d).olen ∧ (t.chan d).ovalid = (s.chan d).ovalid) ∧
    (t.ev.getLsbD 0 = true → ∃ c b, i = .feed c b ∧ ∀ d : ChanNo, d ≠ c → t.chan d = s.chan d)

/-- R27: DCOUNT grows only by a DEDUP into a cache that is not full, by one; at N it stays; and a pair leaves the cache only
in a DEDUP on a full cache, the oldest one, when another is inserted. -/
def Obligations.EntriesLeaveOnlyByEviction : Prop :=
  ∀ (i : Instr) (s t : State), s.Inv → exec i s = .next t →
    (t.dcount ≠ s.dcount → (∃ c, i = .dedup c) ∧ s.dcount < s.cfg.n ∧ t.dcount = s.dcount + 1) ∧
    (s.dcount = s.cfg.n → t.dcount = s.cfg.n) ∧
    (∀ p ∈ s.pairs, p ∉ t.pairs → (∃ c, i = .dedup c) ∧ s.dcount = s.cfg.n ∧ s.pairs.head? = some p ∧
      ∃ q ∈ t.pairs, q ∉ s.pairs)

/-! ## Checksum (spec/40_checksum.md) -/

/-- R100 and R101: `compute` and `validate` over the sum of the unsigned bytes. -/
def Obligations.ComputeAndValidateAreTheByteSum : Prop :=
  (∀ bs : List Byte,
    (compute bs).toNat = (256 - (bs.map BitVec.toNat).sum % 256) % 256 ∧
    (validate bs = true ↔ (bs.map BitVec.toNat).sum % 256 = 0) ∧
    ((bs.map BitVec.toNat).sum % 256 = 0 → compute bs = 0#8)) ∧
  compute [] = 0#8 ∧ validate [] = true ∧
  compute [0x55#8, 0xAA#8, 0x00#8] = 0x01#8 ∧
  validate [0x55#8, 0xAA#8, 0x00#8, 0x01#8] = true ∧ validate [0x55#8, 0xAA#8, 0x00#8, 0x02#8] = false

/-- Exactly one last byte makes a string valid, the one `compute` gives (40_checksum.md, the laws the spec marks as derived).
-/
def Obligations.ExactlyTheComputedByteValidates : Prop :=
  ∀ (bs : List Byte) (c : Byte), validate (bs ++ [c]) = true ↔ c = compute bs

/-- A change of one byte of a valid string is detected; a change of the order of its bytes is not (40_checksum.md, facts the
spec marks as derived). -/
def Obligations.ChecksumDetectsOneByteNotOrder : Prop :=
  (∀ (bs cs : List Byte) (x y : Byte), x ≠ y → validate (bs ++ x :: cs) = true → validate (bs ++ y :: cs) = false) ∧
  ∀ bs cs : List Byte, bs.Perm cs → validate bs = validate cs

/-! ## FEED and TICK (spec/41_assembler.md) -/

/-- The elapsed time is the unsigned difference of two TIME_W-bit times, across a wrap too, and the timeout test is strict
(00_scope.md section 5, 41_assembler.md section 1). -/
def Obligations.TimeoutIsStrictAcrossTheWrap : Prop :=
  ∀ (cfg : Config) (now t : Time), cfg.Ok → now.toNat < 2 ^ cfg.timeW → t.toNat < 2 ^ cfg.timeW →
    elapsed cfg now t = (if t.toNat ≤ now.toNat then now.toNat - t.toNat else now.toNat + 2 ^ cfg.timeW - t.toNat) ∧
    ∀ (timeoutMs : Time) (ch : Channel), ch.tlast = t →
      (ch.timedOut cfg timeoutMs now = true ↔ 0 < ch.len ∧ timeoutMs.toNat < elapsed cfg now t)

/-- R123: on a channel that is empty after the timeout test a byte other than MARKER0 is dropped with EV_DROP, and MARKER0
starts a frame. -/
def Obligations.HuntingDropsAllButTheMarker : Prop :=
  ∀ (s : State) (c : ChanNo) (b : Byte), s.cfg.Ok → c.toNat < s.cfg.nch →
    ((s.chan c).len = 0 →
      (b ≠ s.cfg.marker0 → exec (.feed c b) s = .next { s with
        chans := s.chans.set c.toNat { s.chan c with tlast := s.time }, ev := 0x0010#16, rdata := 0#32 }) ∧
      (b = s.cfg.marker0 → exec (.feed c b) s = .next { s with
        chans := s.chans.set c.toNat { s.chan c with buf := (s.chan c).buf.set 0 b, len := 1, tlast := s.time },
        ev := 0x0000#16, rdata := 0#32 })) ∧
    (s.TimedOut c →
      (b ≠ s.cfg.marker0 → exec (.feed c b) s = .next { s with
        chans := s.chans.set c.toNat { s.chan c with len := 0, tlast := s.time }, ev := 0x0018#16, rdata := 0#32 }) ∧
      (b = s.cfg.marker0 → exec (.feed c b) s = .next { s with
        chans := s.chans.set c.toNat { s.chan c with buf := (s.chan c).buf.set 0 b, len := 1, tlast := s.time },
        ev := 0x0008#16, rdata := 0#32 }))

/-- 41_assembler.md section 1: on a channel that holds bytes, any byte is appended, neither marker byte being tested: if
the frame is then neither complete nor at CAP bytes, the byte is the last of the frame in progress and nothing else
happens. -/
def Obligations.FeedAppendsAnyByte : Prop :=
  ∀ (s : State) (c : ChanNo) (b : Byte), s.Inv → c.toNat < s.cfg.nch → 0 < (s.chan c).len → ¬ s.TimedOut c →
    let f := (s.chan c).content ++ [b]
    ¬ (3 ≤ f.length ∧ (f.getD 2 0#8).toNat + 4 ≤ f.length) → f.length ≠ s.cfg.cap →
    ∃ t, exec (.feed c b) s = .next t ∧ (t.chan c).content = f ∧ (t.chan c).len = (s.chan c).len + 1 ∧
      t = { s with
        chans := s.chans.set c.toNat
          { s.chan c with buf := (s.chan c).buf.set (s.chan c).len b, len := (s.chan c).len + 1, tlast := s.time }
        ev := 0x0000#16, rdata := 0#32 }

/-- R126: a byte that makes the frame length-complete, with a byte sum of 0, emits the frame and empties the buffer; and
EV_FRAME is raised by no other FEED. -/
def Obligations.FeedEmitsACompleteValidFrame : Prop :=
  (∀ (s : State) (c : ChanNo) (b : Byte), s.Inv → c.toNat < s.cfg.nch → 0 < (s.chan c).len → ¬ s.TimedOut c →
    let f := (s.chan c).content ++ [b]
    3 ≤ f.length → (f.getD 2 0#8).toNat + 4 ≤ f.length → sum8 f = 0 →
    ∃ t, exec (.feed c b) s = .next t ∧ t.ev = 0x0001#16 ∧ t.rdata = 0#32 ∧ (t.chan c).frame = f ∧
      (t.chan c).olen = f.length ∧ (t.chan c).ovalid = true ∧ (t.chan c).len = 0 ∧ (t.chan c).tlast = s.time ∧
      t = { s with chans := s.chans.set c.toNat (t.chan c), ev := t.ev, rdata := t.rdata }) ∧
  ∀ (s t : State) (c : ChanNo) (b : Byte), s.Inv → exec (.feed c b) s = .next t → t.ev.getLsbD 0 = true →
    let f := (s.chan c).content ++ [b]
    0 < (s.chan c).len ∧ ¬ s.TimedOut c ∧ 3 ≤ f.length ∧ (f.getD 2 0#8).toNat + 4 ≤ f.length ∧ sum8 f = 0

/-- R127: a length-complete frame whose byte sum is not 0 is discarded with EV_CSUM_ERR; the output frame stays. -/
def Obligations.FeedRejectsABadChecksum : Prop :=
  ∀ (s : State) (c : ChanNo) (b : Byte), s.Inv → c.toNat < s.cfg.nch → 0 < (s.chan c).len → ¬ s.TimedOut c →
    let f := (s.chan c).content ++ [b]
    3 ≤ f.length → (f.getD 2 0#8).toNat + 4 ≤ f.length → sum8 f ≠ 0 →
    exec (.feed c b) s = .next { s with
      chans := s.chans.set c.toNat
        { s.chan c with buf := (s.chan c).buf.set (s.chan c).len b, len := 0, tlast := s.time }
      ev := 0x0002#16, rdata := 0#32 }

/-- R128: a byte that fills the buffer without completing the frame discards it with EV_OVERFLOW. -/
def Obligations.FeedOverflowsAtCapacity : Prop :=
  ∀ (s : State) (c : ChanNo) (b : Byte), s.Inv → c.toNat < s.cfg.nch → 0 < (s.chan c).len → ¬ s.TimedOut c →
    let f := (s.chan c).content ++ [b]
    ¬ (3 ≤ f.length ∧ (f.getD 2 0#8).toNat + 4 ≤ f.length) → f.length = s.cfg.cap →
    exec (.feed c b) s = .next { s with
      chans := s.chans.set c.toNat
        { s.chan c with buf := (s.chan c).buf.set (s.chan c).len b, len := 0, tlast := s.time }
      ev := 0x0004#16, rdata := 0#32 }

/-- R122: every FEED sets TLAST[c] to `now`, and while LEN[c] = 0 the value of TLAST[c] has no effect on a FEED or TICK. -/
def Obligations.EveryFeedStampsTheTime : Prop :=
  (∀ (s : State) (c : ChanNo) (b : Byte), s.Inv → c.toNat < s.cfg.nch →
    ∃ t, exec (.feed c b) s = .next t ∧ (t.chan c).tlast = s.time) ∧
  ∀ (s : State) (c : ChanNo) (b : Byte) (x : Time), s.Inv → c.toNat < s.cfg.nch → (s.chan c).len = 0 →
    let s' := { s with chans := s.chans.set c.toNat { s.chan c with tlast := x } }
    exec (.feed c b) s' = exec (.feed c b) s ∧
    exec (.tick c) s' = .next { s' with ev := 0x0000#16, rdata := 0#32 } ∧
    exec (.tick c) s = .next { s with ev := 0x0000#16, rdata := 0#32 }

/-- 41_assembler.md section 2: TICK discards a timed-out partial frame with EV_TIMEOUT, and otherwise does nothing; it
never writes TLAST[c]. -/
def Obligations.TickAppliesTheTimeout : Prop :=
  ∀ (s : State) (c : ChanNo), c.toNat < s.cfg.nch →
    (s.TimedOut c → exec (.tick c) s = .next { s with
      chans := s.chans.set c.toNat { s.chan c with len := 0 }, ev := 0x0008#16, rdata := 0#32 }) ∧
    (¬ s.TimedOut c → exec (.tick c) s = .next { s with ev := 0x0000#16, rdata := 0#32 })

/-- A timed-out partial frame is discarded alike by a TICK and then a FEED, and by the FEED alone: the same state, the
EV_TIMEOUT bit being in the TICK's vector or in the FEED's (41_assembler.md section 2, which the spec marks as derived). -/
def Obligations.TickThenFeedEqualsFeed : Prop :=
  ∀ (s : State) (c : ChanNo) (b : Byte), c.toNat < s.cfg.nch → s.TimedOut c →
    ∃ t u, exec (.tick c) s = .next t ∧ t.ev = 0x0008#16 ∧ exec (.feed c b) t = .next u ∧
      exec (.feed c b) s = .next { u with ev := u.ev ||| 0x0008#16 }

/-- R138: what a FEED or TICK on c does depends on channel c, TIMEOUT_MS, the parameters and the time alone, and it changes
channel c and the response alone. -/
def Obligations.ChannelsAreIndependent : Prop :=
  ∀ (s : State) (c : ChanNo) (i : Instr), c.toNat < s.cfg.nch → (i = .tick c ∨ ∃ b, i = .feed c b) →
    ∃ (ch : Channel) (e : Ev), ∀ s' : State, s'.cfg = s.cfg → s'.timeoutMs = s.timeoutMs → s'.time = s.time →
      s'.chan c = s.chan c →
      exec i s' = .next { s' with chans := s'.chans.set c.toNat ch, ev := e, rdata := 0#32 }

/-- A FEED that raises EV_FRAME leaves a frame that starts with MARKER0, is its length byte + 4 bytes long, at least 4 and at
most CAP, and sums to 0 (41_assembler.md section 1, which the spec marks as derived). -/
def Obligations.EmittedFramesAreWellFormed : Prop :=
  ∀ (s t : State) (c : ChanNo) (b : Byte), s.Inv → exec (.feed c b) s = .next t → t.ev.getLsbD 0 = true →
    let f := (t.chan c).frame
    f.getD 0 0#8 = s.cfg.marker0 ∧ f.length = (f.getD 2 0#8).toNat + 4 ∧ 4 ≤ f.length ∧ f.length ≤ s.cfg.cap ∧
    (f.map BitVec.toNat).sum % 256 = 0

/-- On a run from one emission on a channel to a later one, whatever else is presented between, at least four FEEDs on that
channel are executed, the emitting one counted: a FEED adds at most one byte, no other step adds any, and an emission needs three
bytes buffered and leaves none (70_reset_and_hazards.md section 4, which the spec marks as derived). -/
def Obligations.FourFeedsBetweenEmissions : Prop :=
  (∀ (s t : State) (c : ChanNo) (b : Byte), s.Inv → c.toNat < s.cfg.nch → exec (.feed c b) s = .next t →
    (t.chan c).len ≤ (s.chan c).len + 1 ∧
    (t.ev.getLsbD 0 = true → 3 ≤ (s.chan c).len ∧ (t.chan c).len = 0)) ∧
  (∀ (s t : State) (c : ChanNo), step s = .next t → s.feedsNext c = false → (t.chan c).len ≤ (s.chan c).len) ∧
  ∀ (s t u v : State) (c : ChanNo) (k : Nat), s.Inv → Emission c s t → run k t = .next u → Emission c u v →
    4 ≤ (t.queue.take (k + 1)).countP (isFeedOf s.cfg c)

/-- A valid frame fed byte by byte into an empty channel, with no gap longer than TIMEOUT_MS, is emitted once, at its last
byte, and leaves the channel empty (41_assembler.md section 1, which the spec marks as derived; DOC §8's first property). -/
def Obligations.AFedFrameIsEmittedOnce : Prop :=
  ∀ (s : State) (c : ChanNo) (xs : List Arrival) (rest : List HostIn), s.Inv → c.toNat < s.cfg.nch →
    (s.chan c).len = 0 → s.queue = feedsOf c xs ++ rest → ValidFrame s.cfg (xs.map Arrival.byte) →
    NoGap s.cfg s.timeoutMs xs →
    (∀ k, 0 < k → k < xs.length → ∃ t, run k s = .next t ∧ t.ev = 0x0000#16) ∧
    ∃ t, run xs.length s = .next t ∧ t.ev = 0x0001#16 ∧ (t.chan c).ovalid = true ∧
      (t.chan c).frame = xs.map Arrival.byte ∧ (t.chan c).len = 0 ∧ t.queue = rest

/-- A frame with only its checksum byte corrupted is discarded with EV_CSUM_ERR, and the valid frame that follows is emitted
(41_assembler.md section 3, which the spec marks as derived; DOC §8's second property). -/
def Obligations.ACorruptFrameThenAValidOne : Prop :=
  ∀ (s : State) (c : ChanNo) (xs ys : List Arrival) (bs : List Byte) (x y : Byte) (rest : List HostIn),
    s.Inv → c.toNat < s.cfg.nch → (s.chan c).len = 0 → s.queue = feedsOf c (xs ++ ys) ++ rest →
    ValidFrame s.cfg (bs ++ [y]) → x ≠ y → xs.map Arrival.byte = bs ++ [x] →
    ValidFrame s.cfg (ys.map Arrival.byte) → NoGap s.cfg s.timeoutMs xs → NoGap s.cfg s.timeoutMs ys →
    (∃ t, run xs.length s = .next t ∧ t.ev = 0x0002#16 ∧ (t.chan c).len = 0 ∧
      (t.chan c).frame = (s.chan c).frame ∧ (t.chan c).ovalid = (s.chan c).ovalid) ∧
    ∃ t, run (xs.length + ys.length) s = .next t ∧ t.ev = 0x0001#16 ∧
      (t.chan c).frame = ys.map Arrival.byte ∧ (t.chan c).len = 0

/-- A candidate whose length byte exceeds LMAX = CAP − 4 always ends with EV_OVERFLOW after exactly CAP bytes, with nothing
emitted (41_assembler.md section 1, which the spec marks as derived). -/
def Obligations.AnOversizeCandidateOverflows : Prop :=
  ∀ (s : State) (c : ChanNo) (xs : List Arrival) (rest : List HostIn), s.Inv → c.toNat < s.cfg.nch →
    (s.chan c).len = 0 → s.queue = feedsOf c xs ++ rest → xs.length = s.cfg.cap →
    (xs.map Arrival.byte).getD 0 0#8 = s.cfg.marker0 → s.cfg.lmax < ((xs.map Arrival.byte).getD 2 0#8).toNat →
    NoGap s.cfg s.timeoutMs xs →
    (∀ k, 0 < k → k < s.cfg.cap → ∃ t, run k s = .next t ∧ t.ev = 0x0000#16) ∧
    ∃ t, run s.cfg.cap s = .next t ∧ t.ev = 0x0004#16 ∧ (t.chan c).len = 0 ∧
      (t.chan c).frame = (s.chan c).frame ∧ (t.chan c).ovalid = (s.chan c).ovalid

/-! ## The deduplication cache (spec/42_dedup.md) -/

/-- R159: DEDUP without an output frame raises EV_NOFRAME, returns 0 and changes no state. -/
def Obligations.DedupWithoutAFrameChangesNothing : Prop :=
  ∀ (s : State) (c : ChanNo), c.toNat < s.cfg.nch → (s.chan c).ovalid = false →
    exec (.dedup c) s = .next { s with ev := 0x0080#16, rdata := 0#32 }

/-- R154: an entry in use with this sender and exactly these bytes keeps its place and takes the time
of the command; nothing else changes. -/
def Obligations.DedupRefreshesADuplicateInPlace : Prop :=
  ∀ (s : State) (c : ChanNo) (i : Nat) (e : Entry), s.Inv → c.toNat < s.cfg.nch → (s.chan c).ovalid = true →
    i < s.dcount → s.dent[i]? = some e → e.snd = c → e.frame = (s.chan c).frame →
    exec (.dedup c) s = .next { s with
      dent := s.dent.set i { e with ts := s.time }, ev := 0x0020#16, rdata := BitVec.ofNat 32 i }

/-- R156: a new pair in a cache that is not full becomes entry DCOUNT, DCOUNT grows by one and no event is raised; every
other entry and all other state stays. -/
def Obligations.DedupInsertsAtTheEnd : Prop :=
  ∀ (s : State) (c : ChanNo), s.Inv → c.toNat < s.cfg.nch → (s.chan c).ovalid = true →
    (c, (s.chan c).frame) ∉ s.pairs → s.dcount < s.cfg.n →
    ∃ t e, exec (.dedup c) s = .next t ∧ t.dent[s.dcount]? = some e ∧ e.snd = c ∧
      e.klen = (s.chan c).frame.length ∧ e.frame = (s.chan c).frame ∧ e.ts = s.time ∧
      t = { s with dent := s.dent.set s.dcount e, dcount := s.dcount + 1, ev := 0x0000#16,
                   rdata := BitVec.ofNat 32 s.dcount }

/-- R157: a new pair in a full cache evicts entry 0: every other entry moves down by one unchanged, the new one stands at
N − 1, DCOUNT stays N and EV_EVICT is raised; all other state stays. -/
def Obligations.DedupEvictsEntryZero : Prop :=
  ∀ (s : State) (c : ChanNo), s.Inv → c.toNat < s.cfg.nch → (s.chan c).ovalid = true →
    (c, (s.chan c).frame) ∉ s.pairs → s.dcount = s.cfg.n →
    ∃ t e, exec (.dedup c) s = .next t ∧ t.dcount = s.cfg.n ∧ t.dent.length = s.cfg.n ∧
      (∀ j, j + 1 < s.cfg.n → t.dent[j]? = s.dent[j + 1]?) ∧ t.dent[s.cfg.n - 1]? = some e ∧ e.snd = c ∧
      e.klen = (s.chan c).frame.length ∧ e.frame = (s.chan c).frame ∧ e.ts = s.time ∧
      t = { s with dent := t.dent, ev := 0x0040#16, rdata := BitVec.ofNat 32 (s.cfg.n - 1) }

/-- DEDUP acts on the cache's pairs as seenOrRecord on a FIFO of at most N pairs; rdata is where the pair then stands, and
EV_DUP tells whether it was there before (42_dedup.md section 1). -/
def Obligations.DedupRefinesTheFifoOfPairs : Prop :=
  ∀ (s : State) (c : ChanNo), s.Inv → c.toNat < s.cfg.nch → (s.chan c).ovalid = true →
    ∃ t, exec (.dedup c) s = .next t ∧
      t.pairs = fifoRecord s.cfg.n s.pairs (c, (s.chan c).frame) ∧
      t.pairs[t.rdata.toNat]? = some (c, (s.chan c).frame) ∧
      (t.ev = 0x0020#16 ↔ (c, (s.chan c).frame) ∈ s.pairs) ∧
      t = { s with dent := t.dent, dcount := t.dcount, ev := t.ev, rdata := t.rdata }

/-- A second DEDUP of the same output frame, at whatever time, is a duplicate at the same index, and changes neither the
pairs nor DCOUNT (42_dedup.md section 1, a corner case the spec marks as derived). -/
def Obligations.DedupTwiceIsADuplicate : Prop :=
  ∀ (s t : State) (c : ChanNo) (p : HostIn), s.Inv → c.toNat < s.cfg.nch → (s.chan c).ovalid = true →
    exec (.dedup c) s = .next t →
    ∃ u, exec (.dedup c) { t with inp := p } = .next u ∧ u.ev = 0x0020#16 ∧ u.rdata = t.rdata ∧
      u.pairs = t.pairs ∧ u.dcount = t.dcount

/-- N + 1 distinct (sender, frame) pairs recorded from an empty cache leave the last N, in order, the last one evicting the
first; a pair still present is then a duplicate that changes neither the pairs nor DCOUNT (42_dedup.md section 2, which the
spec marks as derived; DOC §8's cache property, for every N). DEDUP is this recording of its channel's last frame. -/
def Obligations.TheCacheKeepsTheNewestPairs : Prop :=
  (∀ (s : State) (c : ChanNo), c.toNat < s.cfg.nch → (s.chan c).ovalid = true →
    exec (.dedup c) s = .next (s.seenOrRecord c (s.chan c).frame)) ∧
  ∀ (s : State) (ps : List (ChanNo × List Byte)), s.Inv → s.dcount = 0 → ps.Nodup → ps.length = s.cfg.n + 1 →
    (∀ p ∈ ps, p.1.toNat < s.cfg.nch ∧ ValidFrame s.cfg p.2) →
    let t := ps.foldl (fun u p => u.seenOrRecord p.1 p.2) s
    t.dcount = s.cfg.n ∧ t.pairs = ps.drop 1 ∧ t.ev = 0x0040#16 ∧
    ∀ p ∈ ps.drop 1, (t.seenOrRecord p.1 p.2).pairs = t.pairs ∧ (t.seenOrRecord p.1 p.2).dcount = s.cfg.n ∧
      (t.seenOrRecord p.1 p.2).ev = 0x0020#16

/-- 42_dedup.md section 1: DMETA reads the valid bit, sender and length of an entry in use, and 0 at every index from
DCOUNT on, N and above too; no state changes. -/
def Obligations.DmetaReadsAnEntry : Prop :=
  ∀ (s : State) (i : BitVec 8),
    (∀ e : Entry, i.toNat < s.dcount → s.dent[i.toNat]? = some e → exec (.dmeta i) s = .next { s with
      ev := 0x0000#16, rdata := 1#1 ++ 0#3 ++ e.snd ++ 0#15 ++ BitVec.ofNat 9 e.klen }) ∧
    (s.dcount ≤ i.toNat → exec (.dmeta i) s = .next { s with ev := 0x0000#16, rdata := 0#32 })

/-- 42_dedup.md section 1: DTIME reads the timestamp of an entry in use, and 0 at every index from DCOUNT on, N and above
too; no state changes. -/
def Obligations.DtimeReadsATimestamp : Prop :=
  ∀ (s : State) (i : BitVec 8),
    (∀ e : Entry, i.toNat < s.dcount → s.dent[i.toNat]? = some e →
      exec (.dtime i) s = .next { s with ev := 0x0000#16, rdata := e.ts }) ∧
    (s.dcount ≤ i.toNat → exec (.dtime i) s = .next { s with ev := 0x0000#16, rdata := 0#32 })

/-- 42_dedup.md section 1: DBYTE reads a key byte of an entry in use, and 0 at KLEN and above and at every index from
DCOUNT on; no state changes. -/
def Obligations.DbyteReadsAKeyByte : Prop :=
  ∀ (s : State) (i k : BitVec 8),
    (∀ e : Entry, i.toNat < s.dcount → s.dent[i.toNat]? = some e →
      (∀ b : Byte, k.toNat < e.klen → e.key[k.toNat]? = some b →
        exec (.dbyte i k) s = .next { s with ev := 0x0000#16, rdata := b.setWidth 32 }) ∧
      (e.klen ≤ k.toNat → exec (.dbyte i k) s = .next { s with ev := 0x0000#16, rdata := 0#32 })) ∧
    (s.dcount ≤ i.toNat → exec (.dbyte i k) s = .next { s with ev := 0x0000#16, rdata := 0#32 })

/-! ## NOP, readouts and CSR access (spec/43_readout_csr.md) -/

/-- R181: NOP changes no state, raises nothing and returns 0; the all-zero word is its only word. -/
def Obligations.NopDoesNothing : Prop :=
  (∀ s : State, exec .nop s = .next { s with ev := 0x0000#16, rdata := 0#32 }) ∧
  ∀ (cfg : Config) (w : Word), w.extractLsb' 28 4 = 0#4 → (legal cfg w = true ↔ w = 0x00000000#32)

/-- 43_readout_csr.md: FMETA reads OVALID[c] and OLEN[c]; no state changes. -/
def Obligations.FmetaReadsTheFrameStatus : Prop :=
  ∀ (s : State) (c : ChanNo), c.toNat < s.cfg.nch →
    exec (.fmeta c) s = .next { s with
      ev := 0x0000#16, rdata := BitVec.ofBool (s.chan c).ovalid ++ 0#22 ++ BitVec.ofNat 9 (s.chan c).olen }

/-- 43_readout_csr.md: FBYTE reads a byte of the last emitted frame, and 0 at OLEN[c] and above; no state changes. -/
def Obligations.FbyteReadsAFrameByte : Prop :=
  ∀ (s : State) (c : ChanNo) (k : BitVec 8) (b : Byte), c.toNat < s.cfg.nch →
    ((s.chan c).oframe[k.toNat]? = some b → k.toNat < (s.chan c).olen →
      exec (.fbyte c k) s = .next { s with ev := 0x0000#16, rdata := b.setWidth 32 }) ∧
    ((s.chan c).olen ≤ k.toNat → exec (.fbyte c k) s = .next { s with ev := 0x0000#16, rdata := 0#32 })

/-- 43_readout_csr.md: BBYTE reads a byte of the frame in progress, and 0 at LEN[c] and above; no state changes and no
timeout test. -/
def Obligations.BbyteReadsABufferByte : Prop :=
  ∀ (s : State) (c : ChanNo) (k : BitVec 8) (b : Byte), c.toNat < s.cfg.nch →
    ((s.chan c).buf[k.toNat]? = some b → k.toNat < (s.chan c).len →
      exec (.bbyte c k) s = .next { s with ev := 0x0000#16, rdata := b.setWidth 32 }) ∧
    ((s.chan c).len ≤ k.toNat → exec (.bbyte c k) s = .next { s with ev := 0x0000#16, rdata := 0#32 })

/-- 43_readout_csr.md: CSRR reads each register of the map; with a channel the register's scope does not allow it is
illegal. -/
def Obligations.CsrrReadsTheMap : Prop :=
  ∀ (s : State) (c : ChanNo),
    exec (.csrr 0#4 .timeoutMs) s = .next { s with ev := 0x0000#16, rdata := s.timeoutMs } ∧
    exec (.csrr 0#4 .capr) s = .next { s with ev := 0x0000#16, rdata := BitVec.ofNat 32 s.cfg.cap } ∧
    exec (.csrr 0#4 .dcapr) s = .next { s with ev := 0x0000#16, rdata := BitVec.ofNat 32 s.cfg.n } ∧
    exec (.csrr 0#4 .nchr) s = .next { s with ev := 0x0000#16, rdata := BitVec.ofNat 32 s.cfg.nch } ∧
    exec (.csrr 0#4 .dcountr) s = .next { s with ev := 0x0000#16, rdata := BitVec.ofNat 32 s.dcount } ∧
    exec (.csrr 0#4 .markerr) s = .next { s with
      ev := 0x0000#16, rdata := 0#16 ++ s.cfg.marker1 ++ s.cfg.marker0 } ∧
    exec (.csrr 0#4 .timewr) s = .next { s with ev := 0x0000#16, rdata := BitVec.ofNat 32 s.cfg.timeW } ∧
    (c.toNat < s.cfg.nch → exec (.csrr c .chLen) s = .next { s with
      ev := 0x0000#16, rdata := BitVec.ofNat 32 (s.chan c).len }) ∧
    (c.toNat < s.cfg.nch → exec (.csrr c .chTlast) s = .next { s with ev := 0x0000#16, rdata := (s.chan c).tlast }) ∧
    (∀ r : Csr, r ≠ .chLen → r ≠ .chTlast → c ≠ 0#4 →
      exec (.csrr c r) s = .next { s with ev := 0x0100#16, rdata := 0#32 }) ∧
    (s.cfg.nch ≤ c.toNat →
      exec (.csrr c .chLen) s = .next { s with ev := 0x0100#16, rdata := 0#32 } ∧
      exec (.csrr c .chTlast) s = .next { s with ev := 0x0100#16, rdata := 0#32 })

/-- R189: CSRW writes the TIME_W low bits of wdata to TIMEOUT_MS and nothing else; any other CSRW is illegal and changes
nothing; the only legal CSRW word is 0xB0000000. -/
def Obligations.CsrwWritesTheTimeoutOnly : Prop :=
  (∀ s : State, exec (.csrw 0#4 .timeoutMs) s = .next { s with
    timeoutMs := BitVec.ofNat 32 (s.inp.wdata.toNat % 2 ^ s.cfg.timeW), ev := 0x0000#16, rdata := 0#32 }) ∧
  (∀ (s : State) (c : ChanNo) (r : Csr), c ≠ 0#4 ∨ r ≠ .timeoutMs →
    exec (.csrw c r) s = .next { s with ev := 0x0100#16, rdata := 0#32 }) ∧
  (∀ (cfg : Config) (w : Word), w.extractLsb' 28 4 = 0xB#4 → (legal cfg w = true ↔ w = 0xB0000000#32)) ∧
  ∀ (s : State) (p : HostIn) (rest : List HostIn), s.queue = p :: rest → p.rst = false →
    p.cmd.extractLsb' 28 4 = 0xB#4 → p.cmd ≠ 0xB0000000#32 →
    step s = .next { s with inp := p, queue := rest, ev := 0x0100#16, rdata := 0#32 }

/-- R31: a CSRW of TIMEOUT_MS takes any value, ignores wdata above TIME_W bits, and is what the next CSRR returns; the reset
value is TIMEOUT_RESET. -/
def Obligations.TheTimeoutWrittenIsRead : Prop :=
  (∀ (s : State) (v : Word), s.inp.wdata = v → ∃ t u, exec (.csrw 0#4 .timeoutMs) s = .next t ∧
    t.timeoutMs.toNat = v.toNat % 2 ^ s.cfg.timeW ∧ exec (.csrr 0#4 .timeoutMs) t = .next u ∧
    u.rdata.toNat = v.toNat % 2 ^ s.cfg.timeW) ∧
  ∀ cfg : Config, (State.resetOf cfg).timeoutMs = cfg.timeoutReset

/-- The eight commands that only read change no state but the response, and repeat with the same response (20_memory.md
section 3). -/
def Obligations.ReadoutsChangeNoState : Prop :=
  ∀ (i : Instr) (s : State), readOnly i = true →
    ∃ t, exec i s = .next t ∧ t = { s with ev := t.ev, rdata := t.rdata } ∧ exec i t = .next t

/-- No command but FEED, TICK and DEDUP reads `now`, and no command but CSRW reads `wdata` (93_implementation_defined.md
section 2). -/
def Obligations.UnusedInputsAreNotRead : Prop :=
  ∀ (i : Instr) (s t : State) (x : Time) (v : Word), exec i s = .next t →
    ((readOnly i = true ∨ ∃ c r, i = .csrw c r) →
      exec i { s with inp := { s.inp with now := x } } = .next { t with inp := { s.inp with now := x } }) ∧
    ((∀ c r, i ≠ .csrw c r) →
      exec i { s with inp := { s.inp with wdata := v } } = .next { t with inp := { s.inp with wdata := v } })
end

