-- ==== Sys2Proof/Laws/State.lean ====
section
/-!
SUPPORT. Laws/State.lean: one lemma per field per update of State, Channel and Entry, so that no proof unfolds a record
update.
-/

namespace Sys2Proof.Machine

/-! ## respond, illegal -/

@[simp] theorem State.respond_cfg (x : State) (e : Ev) (r : Word) : (x.respond e r).cfg = x.cfg := rfl
@[simp] theorem State.respond_chans (x : State) (e : Ev) (r : Word) : (x.respond e r).chans = x.chans := rfl
@[simp] theorem State.respond_timeoutMs (x : State) (e : Ev) (r : Word) : (x.respond e r).timeoutMs = x.timeoutMs := rfl
@[simp] theorem State.respond_dcount (x : State) (e : Ev) (r : Word) : (x.respond e r).dcount = x.dcount := rfl
@[simp] theorem State.respond_dent (x : State) (e : Ev) (r : Word) : (x.respond e r).dent = x.dent := rfl
@[simp] theorem State.respond_inp (x : State) (e : Ev) (r : Word) : (x.respond e r).inp = x.inp := rfl
@[simp] theorem State.respond_ev (x : State) (e : Ev) (r : Word) : (x.respond e r).ev = e := rfl
@[simp] theorem State.respond_rdata (x : State) (e : Ev) (r : Word) : (x.respond e r).rdata = r := rfl
@[simp] theorem State.respond_queue (x : State) (e : Ev) (r : Word) : (x.respond e r).queue = x.queue := rfl

@[simp] theorem State.illegal_cfg (x : State) : (x.illegal).cfg = x.cfg := rfl
@[simp] theorem State.illegal_chans (x : State) : (x.illegal).chans = x.chans := rfl
@[simp] theorem State.illegal_timeoutMs (x : State) : (x.illegal).timeoutMs = x.timeoutMs := rfl
@[simp] theorem State.illegal_dcount (x : State) : (x.illegal).dcount = x.dcount := rfl
@[simp] theorem State.illegal_dent (x : State) : (x.illegal).dent = x.dent := rfl
@[simp] theorem State.illegal_inp (x : State) : (x.illegal).inp = x.inp := rfl
@[simp] theorem State.illegal_ev (x : State) : (x.illegal).ev = evIllegal := rfl
@[simp] theorem State.illegal_rdata (x : State) : (x.illegal).rdata = 0#32 := rfl
@[simp] theorem State.illegal_queue (x : State) : (x.illegal).queue = x.queue := rfl

/-! ## setChan -/

@[simp] theorem State.setChan_cfg (x : State) (c : ChanNo) (ch : Channel) : (x.setChan c ch).cfg = x.cfg := rfl
@[simp] theorem State.setChan_chans (x : State) (c : ChanNo) (ch : Channel) : (x.setChan c ch).chans = x.chans.set c.toNat ch := rfl
@[simp] theorem State.setChan_timeoutMs (x : State) (c : ChanNo) (ch : Channel) : (x.setChan c ch).timeoutMs = x.timeoutMs := rfl
@[simp] theorem State.setChan_dcount (x : State) (c : ChanNo) (ch : Channel) : (x.setChan c ch).dcount = x.dcount := rfl
@[simp] theorem State.setChan_dent (x : State) (c : ChanNo) (ch : Channel) : (x.setChan c ch).dent = x.dent := rfl
@[simp] theorem State.setChan_inp (x : State) (c : ChanNo) (ch : Channel) : (x.setChan c ch).inp = x.inp := rfl
@[simp] theorem State.setChan_ev (x : State) (c : ChanNo) (ch : Channel) : (x.setChan c ch).ev = x.ev := rfl
@[simp] theorem State.setChan_rdata (x : State) (c : ChanNo) (ch : Channel) : (x.setChan c ch).rdata = x.rdata := rfl
@[simp] theorem State.setChan_queue (x : State) (c : ChanNo) (ch : Channel) : (x.setChan c ch).queue = x.queue := rfl

/-! ## the cache updates -/

@[simp] theorem State.refreshEntry_cfg (x : State) (i : Nat) : (x.refreshEntry i).cfg = x.cfg := rfl
@[simp] theorem State.refreshEntry_chans (x : State) (i : Nat) : (x.refreshEntry i).chans = x.chans := rfl
@[simp] theorem State.refreshEntry_timeoutMs (x : State) (i : Nat) : (x.refreshEntry i).timeoutMs = x.timeoutMs := rfl
@[simp] theorem State.refreshEntry_dcount (x : State) (i : Nat) : (x.refreshEntry i).dcount = x.dcount := rfl
@[simp] theorem State.refreshEntry_dent (x : State) (i : Nat) : (x.refreshEntry i).dent = x.dent.modify i (fun e => { e with ts := x.time }) := rfl
@[simp] theorem State.refreshEntry_inp (x : State) (i : Nat) : (x.refreshEntry i).inp = x.inp := rfl
@[simp] theorem State.refreshEntry_ev (x : State) (i : Nat) : (x.refreshEntry i).ev = x.ev := rfl
@[simp] theorem State.refreshEntry_rdata (x : State) (i : Nat) : (x.refreshEntry i).rdata = x.rdata := rfl
@[simp] theorem State.refreshEntry_queue (x : State) (i : Nat) : (x.refreshEntry i).queue = x.queue := rfl

@[simp] theorem State.insertEntry_cfg (x : State) (c : ChanNo) (k : List Byte) : (x.insertEntry c k).cfg = x.cfg := rfl
@[simp] theorem State.insertEntry_chans (x : State) (c : ChanNo) (k : List Byte) : (x.insertEntry c k).chans = x.chans := rfl
@[simp] theorem State.insertEntry_timeoutMs (x : State) (c : ChanNo) (k : List Byte) : (x.insertEntry c k).timeoutMs = x.timeoutMs := rfl
@[simp] theorem State.insertEntry_dcount (x : State) (c : ChanNo) (k : List Byte) : (x.insertEntry c k).dcount = x.dcount + 1 := rfl
@[simp] theorem State.insertEntry_dent (x : State) (c : ChanNo) (k : List Byte) : (x.insertEntry c k).dent = x.dent.modify x.dcount (fun e => e.record c k x.time) := rfl
@[simp] theorem State.insertEntry_inp (x : State) (c : ChanNo) (k : List Byte) : (x.insertEntry c k).inp = x.inp := rfl
@[simp] theorem State.insertEntry_ev (x : State) (c : ChanNo) (k : List Byte) : (x.insertEntry c k).ev = x.ev := rfl
@[simp] theorem State.insertEntry_rdata (x : State) (c : ChanNo) (k : List Byte) : (x.insertEntry c k).rdata = x.rdata := rfl
@[simp] theorem State.insertEntry_queue (x : State) (c : ChanNo) (k : List Byte) : (x.insertEntry c k).queue = x.queue := rfl

@[simp] theorem State.evictEntry_cfg (x : State) (c : ChanNo) (k : List Byte) : (x.evictEntry c k).cfg = x.cfg := rfl
@[simp] theorem State.evictEntry_chans (x : State) (c : ChanNo) (k : List Byte) : (x.evictEntry c k).chans = x.chans := rfl
@[simp] theorem State.evictEntry_timeoutMs (x : State) (c : ChanNo) (k : List Byte) : (x.evictEntry c k).timeoutMs = x.timeoutMs := rfl
@[simp] theorem State.evictEntry_dcount (x : State) (c : ChanNo) (k : List Byte) : (x.evictEntry c k).dcount = x.dcount := rfl
@[simp] theorem State.evictEntry_dent (x : State) (c : ChanNo) (k : List Byte) : (x.evictEntry c k).dent = x.dent.drop 1 ++ [(x.dent.getD (x.cfg.n - 1) (Entry.reset x.cfg)).record c k x.time] := rfl
@[simp] theorem State.evictEntry_inp (x : State) (c : ChanNo) (k : List Byte) : (x.evictEntry c k).inp = x.inp := rfl
@[simp] theorem State.evictEntry_ev (x : State) (c : ChanNo) (k : List Byte) : (x.evictEntry c k).ev = x.ev := rfl
@[simp] theorem State.evictEntry_rdata (x : State) (c : ChanNo) (k : List Byte) : (x.evictEntry c k).rdata = x.rdata := rfl
@[simp] theorem State.evictEntry_queue (x : State) (c : ChanNo) (k : List Byte) : (x.evictEntry c k).queue = x.queue := rfl

/-! ## reset -/

@[simp] theorem State.applyReset_cfg (x : State) : (x.applyReset).cfg = x.cfg := rfl
@[simp] theorem State.applyReset_chans (x : State) : (x.applyReset).chans = List.replicate x.cfg.nch (Channel.reset x.cfg) := rfl
@[simp] theorem State.applyReset_timeoutMs (x : State) : (x.applyReset).timeoutMs = x.cfg.timeoutReset := rfl
@[simp] theorem State.applyReset_dcount (x : State) : (x.applyReset).dcount = 0 := rfl
@[simp] theorem State.applyReset_dent (x : State) : (x.applyReset).dent = List.replicate x.cfg.n (Entry.reset x.cfg) := rfl
@[simp] theorem State.applyReset_inp (x : State) : (x.applyReset).inp = x.inp := rfl
@[simp] theorem State.applyReset_ev (x : State) : (x.applyReset).ev = 0#16 := rfl
@[simp] theorem State.applyReset_rdata (x : State) : (x.applyReset).rdata = 0#32 := rfl
@[simp] theorem State.applyReset_queue (x : State) : (x.applyReset).queue = x.queue := rfl

/-! ## channels -/

@[simp] theorem Channel.discard_buf (x : Channel) : (x.discard).buf = x.buf := rfl
@[simp] theorem Channel.discard_len (x : Channel) : (x.discard).len = 0 := rfl
@[simp] theorem Channel.discard_tlast (x : Channel) : (x.discard).tlast = x.tlast := rfl
@[simp] theorem Channel.discard_oframe (x : Channel) : (x.discard).oframe = x.oframe := rfl
@[simp] theorem Channel.discard_olen (x : Channel) : (x.discard).olen = x.olen := rfl
@[simp] theorem Channel.discard_ovalid (x : Channel) : (x.discard).ovalid = x.ovalid := rfl

@[simp] theorem Channel.append_buf (x : Channel) (b : Byte) : (x.append b).buf = x.buf.set x.len b := rfl
@[simp] theorem Channel.append_len (x : Channel) (b : Byte) : (x.append b).len = x.len + 1 := rfl
@[simp] theorem Channel.append_tlast (x : Channel) (b : Byte) : (x.append b).tlast = x.tlast := rfl
@[simp] theorem Channel.append_oframe (x : Channel) (b : Byte) : (x.append b).oframe = x.oframe := rfl
@[simp] theorem Channel.append_olen (x : Channel) (b : Byte) : (x.append b).olen = x.olen := rfl
@[simp] theorem Channel.append_ovalid (x : Channel) (b : Byte) : (x.append b).ovalid = x.ovalid := rfl

@[simp] theorem Channel.emit_buf (x : Channel) (f : List Byte) : (x.emit f).buf = x.buf := rfl
@[simp] theorem Channel.emit_len (x : Channel) (f : List Byte) : (x.emit f).len = x.len := rfl
@[simp] theorem Channel.emit_tlast (x : Channel) (f : List Byte) : (x.emit f).tlast = x.tlast := rfl
@[simp] theorem Channel.emit_oframe (x : Channel) (f : List Byte) : (x.emit f).oframe = writeLow x.oframe f := rfl
@[simp] theorem Channel.emit_olen (x : Channel) (f : List Byte) : (x.emit f).olen = f.length := rfl
@[simp] theorem Channel.emit_ovalid (x : Channel) (f : List Byte) : (x.emit f).ovalid = true := rfl

/-! ## entries -/

@[simp] theorem Entry.record_snd (x : Entry) (c : ChanNo) (k : List Byte) (now : Time) : (x.record c k now).snd = c := rfl
@[simp] theorem Entry.record_klen (x : Entry) (c : ChanNo) (k : List Byte) (now : Time) : (x.record c k now).klen = k.length := rfl
@[simp] theorem Entry.record_key (x : Entry) (c : ChanNo) (k : List Byte) (now : Time) : (x.record c k now).key = writeLow x.key k := rfl
@[simp] theorem Entry.record_ts (x : Entry) (c : ChanNo) (k : List Byte) (now : Time) : (x.record c k now).ts = now := rfl

/-! ## What the reads depend on -/

theorem State.time_congr {s t : State} (hc : s.cfg = t.cfg) (hi : s.inp = t.inp) : s.time = t.time := by
  simp only [State.time, hc, hi]

@[simp] theorem State.respond_time (s : State) (e : Ev) (r : Word) : (s.respond e r).time = s.time := rfl
@[simp] theorem State.setChan_time (s : State) (c : ChanNo) (ch : Channel) : (s.setChan c ch).time = s.time := rfl
@[simp] theorem State.respond_chan (s : State) (e : Ev) (r : Word) (c : ChanNo) :
    (s.respond e r).chan c = s.chan c := rfl
@[simp] theorem State.illegal_chan (s : State) (c : ChanNo) : s.illegal.chan c = s.chan c := rfl
@[simp] theorem State.refreshEntry_chan (s : State) (i : Nat) (c : ChanNo) : (s.refreshEntry i).chan c = s.chan c := rfl
@[simp] theorem State.insertEntry_chan (s : State) (d : ChanNo) (k : List Byte) (c : ChanNo) :
    (s.insertEntry d k).chan c = s.chan c := rfl
@[simp] theorem State.evictEntry_chan (s : State) (d : ChanNo) (k : List Byte) (c : ChanNo) :
    (s.evictEntry d k).chan c = s.chan c := rfl
@[simp] theorem State.respond_hasChan (s : State) (e : Ev) (r : Word) (c : ChanNo) :
    (s.respond e r).hasChan c = s.hasChan c := rfl
@[simp] theorem State.setChan_hasChan (s : State) (d : ChanNo) (ch : Channel) (c : ChanNo) :
    (s.setChan d ch).hasChan c = s.hasChan c := rfl

/-- A channel that exists reads back what was written to it. -/
theorem State.chan_setChan_same (s : State) (c : ChanNo) (ch : Channel) (h : c.toNat < s.chans.length) :
    (s.setChan c ch).chan c = ch := by
  simp [State.chan, State.setChan, List.getD, h]

/-- Every other channel is untouched by a write. -/
theorem State.chan_setChan_other (s : State) (c d : ChanNo) (ch : Channel) (h : d ≠ c) :
    (s.setChan c ch).chan d = s.chan d := by
  have hne : c.toNat ≠ d.toNat := fun he => h (BitVec.eq_of_toNat_eq he.symm)
  simp [State.chan, State.setChan, List.getD, List.getElem?_set_ne hne]

/-- Writing a channel back as it is changes nothing. -/
theorem State.setChan_self (s : State) (c : ChanNo) : s.setChan c (s.chan c) = s := by
  have h : s.chans.set c.toNat (s.chans.getD c.toNat (Channel.reset s.cfg)) = s.chans := by
    apply List.ext_getElem?
    intro i
    by_cases hi : c.toNat = i
    · subst hi
      by_cases hl : c.toNat < s.chans.length
      · simp [List.getD, hl]
      · simp [Nat.le_of_not_lt hl]
    · simp [List.getElem?_set_ne hi]
  simp only [State.setChan, State.chan, h]

/-- A channel of a state with NCH channels is one of its list. -/
theorem State.chan_mem (s : State) (c : ChanNo) (h : c.toNat < s.chans.length) : s.chan c ∈ s.chans := by
  simp [State.chan, List.getD, h]

end Sys2Proof.Machine
end

