-- ==== Sys2Proof/Laws/Ops.lean ====
section
/-!
SUPPORT. Laws/Ops.lean: what the shared operations do, each said once: byte-array writes, times, the timeout test, the port.
-/

namespace Sys2Proof.Machine

/-! ## Byte arrays -/

@[simp] theorem writeLow_take (old new : List Byte) : (writeLow old new).take new.length = new := by
  simp [writeLow]

/-- A write that fits keeps the array's capacity. -/
theorem writeLow_length {old new : List Byte} (h : new.length ≤ old.length) :
    (writeLow old new).length = old.length := by
  simp [writeLow]
  omega

/-! ## Times -/

theorem truncTime_toNat (cfg : Config) (v : Word) : (truncTime cfg v).toNat = v.toNat % 2 ^ cfg.timeW := by
  have h1 : v.toNat % 2 ^ cfg.timeW ≤ v.toNat := Nat.mod_le _ _
  have h2 := v.isLt
  simp only [truncTime, BitVec.toNat_ofNat]
  exact Nat.mod_eq_of_lt (by omega)

/-- A time cut to TIME_W bits is below 2^TIME_W. -/
theorem truncTime_lt (cfg : Config) (v : Word) : (truncTime cfg v).toNat < 2 ^ cfg.timeW := by
  rw [truncTime_toNat]
  exact Nat.mod_lt _ (Nat.two_pow_pos _)

theorem State.time_lt (s : State) : s.time.toNat < 2 ^ s.cfg.timeW := truncTime_lt _ _

/-! ## The timeout test -/

theorem Channel.timedOut_iff (cfg : Config) (timeoutMs now : Time) (ch : Channel) :
    ch.timedOut cfg timeoutMs now = true ↔ 0 < ch.len ∧ timeoutMs.toNat < elapsed cfg now ch.tlast := by
  simp [Channel.timedOut]

theorem Channel.timeoutTest_of_timedOut {cfg : Config} {timeoutMs now : Time} {ch : Channel}
    (h : ch.timedOut cfg timeoutMs now = true) :
    ch.timeoutTest cfg timeoutMs now = (ch.discard, evTimeout) := by
  simp [Channel.timeoutTest, h, raise, evNone]

theorem Channel.timeoutTest_of_not {cfg : Config} {timeoutMs now : Time} {ch : Channel}
    (h : ch.timedOut cfg timeoutMs now = false) :
    ch.timeoutTest cfg timeoutMs now = (ch, evNone) := by
  simp [Channel.timeoutTest, h]

/-- The two things the timeout test can do. -/
theorem Channel.timeoutTest_cases (cfg : Config) (timeoutMs now : Time) (ch : Channel) :
    (ch.timedOut cfg timeoutMs now = true ∧ ch.timeoutTest cfg timeoutMs now = (ch.discard, evTimeout)) ∨
    (ch.timedOut cfg timeoutMs now = false ∧ ch.timeoutTest cfg timeoutMs now = (ch, evNone)) := by
  cases h : ch.timedOut cfg timeoutMs now
  · exact .inr ⟨rfl, Channel.timeoutTest_of_not h⟩
  · exact .inl ⟨rfl, Channel.timeoutTest_of_timedOut h⟩

/-- The condition in a state, as the statements write it. -/
theorem State.timedOut_iff (s : State) (c : ChanNo) :
    (s.chan c).timedOut s.cfg s.timeoutMs s.time = true ↔ s.TimedOut c := Channel.timedOut_iff _ _ _ _

theorem State.timedOut_false_iff (s : State) (c : ChanNo) :
    (s.chan c).timedOut s.cfg s.timeoutMs s.time = false ↔ ¬ s.TimedOut c := by
  rw [← State.timedOut_iff, Bool.not_eq_true]

/-- An empty channel never times out (R121). -/
theorem Channel.timedOut_of_empty {cfg : Config} {timeoutMs now : Time} {ch : Channel} (h : ch.len = 0) :
    ch.timedOut cfg timeoutMs now = false := by
  simp [Channel.timedOut, h]

/-! ## Events -/

@[simp] theorem raise_none (x : Ev) : raise evNone x = x := by simp [raise, evNone]

/-! ## Channels that exist -/

theorem State.hasChan_iff (s : State) (c : ChanNo) : s.hasChan c = true ↔ c.toNat < s.cfg.nch := by
  simp [State.hasChan, chanExists]

/-- In a state that meets the invariant a channel below NCH is one of the list. -/
theorem State.Inv.chan_lt {s : State} (h : s.Inv) {c : ChanNo} (hc : c.toNat < s.cfg.nch) :
    c.toNat < s.chans.length := by
  rw [h.chans_length]
  exact hc

theorem State.Inv.chan_inv {s : State} (h : s.Inv) {c : ChanNo} (hc : c.toNat < s.cfg.nch) :
    (s.chan c).Inv s.cfg := h.chans_inv _ (s.chan_mem c (h.chan_lt hc))

/-! ## The port -/

theorem State.accept_nil {s : State} (h : s.queue = []) : s.accept = none := by
  simp [State.accept, h]

theorem State.accept_cons {s : State} {p : HostIn} {rest : List HostIn} (h : s.queue = p :: rest) :
    s.accept = some { s with inp := p, queue := rest } := by
  simp [State.accept, h]

end Sys2Proof.Machine
end

