-- ==== Sys2Proof/Laws/Assembler.lean ====
section
/-!
SUPPORT. Laws/Assembler.lean: what FEED can do to a channel, said once, and that it keeps the channel's invariant.
-/

namespace Sys2Proof.Machine

/-! ## The append -/

/-- Appending puts the byte at the end of the frame in progress (R125). -/
theorem Channel.content_append (ch : Channel) (b : Byte) (h : ch.len < ch.buf.length) :
    (ch.append b).content = ch.content ++ [b] := by
  simp only [Channel.content, Channel.append_buf, Channel.append_len]
  rw [List.take_add_one, List.take_set_of_le (Nat.le_refl _)]
  simp [h]

theorem Channel.content_length (ch : Channel) (h : ch.len ≤ ch.buf.length) : ch.content.length = ch.len := by
  simp [Channel.content, h]

/-- A byte of the frame in progress is the buffer's byte. -/
theorem Channel.content_getD (ch : Channel) (k : Nat) (h : k < ch.len) :
    ch.content.getD k 0#8 = ch.buf.getD k 0#8 := by
  simp [Channel.content, List.getD, h]

/-- Completeness on the buffer itself. -/
theorem Channel.complete_iff_buf (ch : Channel) :
    ch.complete = true ↔ 3 ≤ ch.len ∧ (ch.buf.getD 2 0#8).toNat + 4 ≤ ch.len := by
  simp only [Channel.complete, Bool.and_eq_true, decide_eq_true_eq]

/-- Completeness in terms of the frame in progress (R126). -/
theorem Channel.complete_iff (ch : Channel) (h : ch.len ≤ ch.buf.length) :
    ch.complete = true ↔
      3 ≤ ch.content.length ∧ (ch.content.getD 2 0#8).toNat + 4 ≤ ch.content.length := by
  rw [ch.content_length h, ch.complete_iff_buf]
  constructor
  · rintro ⟨h1, h2⟩
    exact ⟨h1, by rw [ch.content_getD 2 (by omega)]; exact h2⟩
  · rintro ⟨h1, h2⟩
    exact ⟨h1, by rw [ch.content_getD 2 (by omega)] at h2; exact h2⟩

/-! ## Settling and feeding -/

/-- The four ends of a FEED that appended: emission, checksum error, overflow, or a longer frame in progress. -/
theorem Channel.settle_cases (cfg : Config) (ch : Channel) (ev : Ev) :
    (ch.complete = true ∧ sum8 ch.content = 0 ∧
      ch.settle cfg ev = ((ch.emit ch.content).discard, raise ev evFrame)) ∨
    (ch.complete = true ∧ sum8 ch.content ≠ 0 ∧ ch.settle cfg ev = (ch.discard, raise ev evCsumErr)) ∨
    (ch.complete = false ∧ ch.len = cfg.cap ∧ ch.settle cfg ev = (ch.discard, raise ev evOverflow)) ∨
    (ch.complete = false ∧ ch.len ≠ cfg.cap ∧ ch.settle cfg ev = (ch, ev)) := by
  unfold Channel.settle validate
  cases hc : ch.complete
  · by_cases hl : ch.len = cfg.cap <;> simp [hl]
  · by_cases hs : sum8 ch.content = 0 <;> simp [hs]

/-- The channel after FEED's steps 1 and 2. -/
def Channel.stamped (cfg : Config) (timeoutMs now : Time) (ch : Channel) : Channel :=
  { (ch.timeoutTest cfg timeoutMs now).1 with tlast := now }

/-- FEED drops the byte or appends it and settles. -/
theorem Channel.feed_cases (cfg : Config) (timeoutMs now : Time) (b : Byte) (ch : Channel) :
    ((ch.stamped cfg timeoutMs now).len = 0 ∧ b ≠ cfg.marker0 ∧
      ch.feed cfg timeoutMs now b =
        (ch.stamped cfg timeoutMs now, raise (ch.timeoutTest cfg timeoutMs now).2 evDrop)) ∨
    (((ch.stamped cfg timeoutMs now).len ≠ 0 ∨ b = cfg.marker0) ∧
      ch.feed cfg timeoutMs now b =
        ((ch.stamped cfg timeoutMs now).append b).settle cfg (ch.timeoutTest cfg timeoutMs now).2) := by
  by_cases h : (ch.stamped cfg timeoutMs now).len = 0 ∧ b ≠ cfg.marker0
  · exact .inl ⟨h.1, h.2, if_pos h⟩
  · refine .inr ⟨?_, if_neg h⟩
    by_cases hb : b = cfg.marker0
    · exact .inr hb
    · exact .inl (fun hl => h ⟨hl, hb⟩)

theorem Channel.stamped_of_timedOut {cfg : Config} {timeoutMs now : Time} {ch : Channel}
    (h : ch.timedOut cfg timeoutMs now = true) :
    ch.stamped cfg timeoutMs now = { ch with len := 0, tlast := now } := by
  simp [Channel.stamped, Channel.timeoutTest_of_timedOut h, Channel.discard]

theorem Channel.stamped_of_not {cfg : Config} {timeoutMs now : Time} {ch : Channel}
    (h : ch.timedOut cfg timeoutMs now = false) :
    ch.stamped cfg timeoutMs now = { ch with tlast := now } := by
  simp [Channel.stamped, Channel.timeoutTest_of_not h]

/-! ## The channel invariant -/

theorem Channel.reset_inv {cfg : Config} (h : cfg.Ok) : (Channel.reset cfg).Inv cfg where
  buf_length := by simp [Channel.reset]
  oframe_length := by simp [Channel.reset]
  len_lt := by
    have := h.cap_ge
    simp only [Channel.reset]
    omega
  tlast_lt := by simp [Channel.reset]
  starts := by simp [Channel.reset]
  incomplete := by simp [Channel.reset]
  olen_le := by simp [Channel.reset]
  invalid_olen := by simp [Channel.reset]
  valid_frame := by simp [Channel.reset]

/-- Emptying a channel keeps its invariant, whatever its buffer holds. -/
theorem Channel.Inv.emptied {cfg : Config} {ch : Channel} (h : ch.Inv cfg) (hcap : 0 < cfg.cap) (buf : List Byte)
    (hb : buf.length = cfg.cap) : Channel.Inv cfg { ch with buf := buf, len := 0 } where
  buf_length := hb
  oframe_length := h.oframe_length
  len_lt := hcap
  tlast_lt := h.tlast_lt
  starts := by simp
  incomplete := by simp
  olen_le := h.olen_le
  invalid_olen := h.invalid_olen
  valid_frame := h.valid_frame

theorem Channel.Inv.discard {cfg : Config} {ch : Channel} (h : ch.Inv cfg) (hcap : 0 < cfg.cap) :
    ch.discard.Inv cfg := h.emptied hcap ch.buf h.buf_length

theorem Channel.Inv.stamp {cfg : Config} {ch : Channel} (h : ch.Inv cfg) {now : Time}
    (hn : now.toNat < 2 ^ cfg.timeW) : Channel.Inv cfg { ch with tlast := now } :=
  ⟨h.buf_length, h.oframe_length, h.len_lt, hn, h.starts, h.incomplete, h.olen_le, h.invalid_olen, h.valid_frame⟩

theorem Channel.Inv.timeoutTest {cfg : Config} {ch : Channel} (h : ch.Inv cfg) (hcap : 0 < cfg.cap)
    (timeoutMs now : Time) : (ch.timeoutTest cfg timeoutMs now).1.Inv cfg := by
  rcases ch.timeoutTest_cases cfg timeoutMs now with ⟨-, he⟩ | ⟨-, he⟩ <;> rw [he]
  · exact h.discard hcap
  · exact h

theorem Channel.Inv.stamped {cfg : Config} {ch : Channel} (h : ch.Inv cfg) (hcap : 0 < cfg.cap) (timeoutMs : Time)
    {now : Time} (hn : now.toNat < 2 ^ cfg.timeW) : (ch.stamped cfg timeoutMs now).Inv cfg :=
  (h.timeoutTest hcap timeoutMs now).stamp hn

/-- A byte that is MARKER0 or follows one gives a buffer that starts with MARKER0. -/
theorem Channel.Inv.append_starts {cfg : Config} {ch : Channel} (h : ch.Inv cfg) {b : Byte}
    (hb : ch.len ≠ 0 ∨ b = cfg.marker0) : (ch.append b).buf.getD 0 0#8 = cfg.marker0 := by
  have hl := h.len_lt
  have hbl := h.buf_length
  by_cases h0 : ch.len = 0
  · rcases hb with hb | hb
    · exact absurd h0 hb
    · simp only [Channel.append_buf, List.getD, h0]
      rw [List.getElem?_set_self (by omega)]
      exact hb
  · have := h.starts (by omega)
    simp only [Channel.append_buf, List.getD] at this ⊢
    rw [List.getElem?_set_ne (by omega)]
    exact this

/-- The candidate of a channel that an append completed is exactly its length byte + 4 bytes long (R129). -/
theorem Channel.Inv.candidate_length {cfg : Config} {ch : Channel} (h : ch.Inv cfg) {b : Byte}
    (hc : (ch.append b).complete = true) :
    (ch.append b).len = ((ch.append b).buf.getD 2 0#8).toNat + 4 := by
  rw [Channel.complete_iff_buf] at hc
  simp only [Channel.append_len, Channel.append_buf] at hc ⊢
  obtain ⟨h3, hle⟩ := hc
  by_cases hl : 3 ≤ ch.len
  · have := h.incomplete hl
    simp only [List.getD] at this hle ⊢
    rw [List.getElem?_set_ne (by omega)] at hle ⊢
    omega
  · omega

/-- A candidate whose bytes sum to 0 is a valid frame (R134). -/
theorem Channel.Inv.candidate_valid {cfg : Config} {ch : Channel} (h : ch.Inv cfg) {b : Byte}
    (hb : ch.len ≠ 0 ∨ b = cfg.marker0) (hc : (ch.append b).complete = true)
    (hs : sum8 (ch.append b).content = 0) : ValidFrame cfg (ch.append b).content := by
  have hlen := h.candidate_length hc
  have hl := h.len_lt
  have hbl : (ch.append b).len ≤ (ch.append b).buf.length := by
    simp only [Channel.append_len, Channel.append_buf, List.length_set, h.buf_length]
    omega
  refine ⟨?_, ?_, ?_, hs⟩
  · rw [Channel.content_getD _ _ (by omega)]
    exact h.append_starts hb
  · rw [Channel.content_length _ hbl, Channel.content_getD _ _ (by omega)]
    exact hlen
  · rw [Channel.content_length _ hbl, Channel.append_len]
    omega

/-- FEED's steps 4 to 6 keep the channel's invariant. -/
theorem Channel.Inv.append_settle {cfg : Config} {ch : Channel} (h : ch.Inv cfg) (hok : cfg.Ok) {b : Byte}
    (hb : ch.len ≠ 0 ∨ b = cfg.marker0) (ev : Ev) : ((ch.append b).settle cfg ev).1.Inv cfg := by
  have hcap : 0 < cfg.cap := by
    have := hok.cap_ge
    omega
  have hl := h.len_lt
  have hbuf : (ch.append b).buf.length = cfg.cap := by simp [h.buf_length]
  have hdis : Channel.Inv cfg (ch.append b).discard := h.emptied hcap _ hbuf
  rcases (ch.append b).settle_cases cfg ev with ⟨hc, hs, he⟩ | ⟨-, -, he⟩ | ⟨-, -, he⟩ | ⟨hc, hn, he⟩ <;> rw [he]
  · have hv := h.candidate_valid hb hc hs
    have hle : (ch.append b).content.length ≤ (ch.append b).oframe.length := by
      rw [Channel.append_oframe, h.oframe_length]
      exact hv.length_le
    exact {
      buf_length := hbuf
      oframe_length := by
        simp only [Channel.discard_oframe, Channel.emit_oframe]
        rw [writeLow_length hle]
        exact h.oframe_length
      len_lt := hcap
      tlast_lt := h.tlast_lt
      starts := by simp
      incomplete := by simp
      olen_le := by
        simp only [Channel.discard_olen, Channel.emit_olen]
        exact hv.length_le
      invalid_olen := by simp
      valid_frame := by
        intro _
        have : ((ch.append b).emit (ch.append b).content).discard.frame = (ch.append b).content := by
          simp [Channel.frame]
        rw [this]
        exact hv }
  · exact hdis
  · exact hdis
  · exact {
      buf_length := hbuf
      oframe_length := h.oframe_length
      len_lt := by
        simp only [Channel.append_len] at hn ⊢
        omega
      tlast_lt := h.tlast_lt
      starts := fun _ => h.append_starts hb
      incomplete := by
        intro h3
        have hnc := mt (ch.append b).complete_iff_buf.2 (by simp [hc])
        exact Nat.lt_of_not_le (fun hle => hnc ⟨h3, hle⟩)
      olen_le := h.olen_le
      invalid_olen := h.invalid_olen
      valid_frame := h.valid_frame }

/-- FEED keeps the channel's invariant. -/
theorem Channel.Inv.feed {cfg : Config} {ch : Channel} (h : ch.Inv cfg) (hok : cfg.Ok) (timeoutMs : Time) {now : Time}
    (hn : now.toNat < 2 ^ cfg.timeW) (b : Byte) : (ch.feed cfg timeoutMs now b).1.Inv cfg := by
  have hcap : 0 < cfg.cap := by
    have := hok.cap_ge
    omega
  have hst := h.stamped hcap timeoutMs hn
  rcases ch.feed_cases cfg timeoutMs now b with ⟨-, -, he⟩ | ⟨hb, he⟩ <;> rw [he]
  · exact hst
  · exact hst.append_settle hok hb _

end Sys2Proof.Machine
end

