-- ==== Sys2Proof/Laws/Decode.lean ====
section
/-!
SUPPORT. Laws/Decode.lean: the fields of a word, CSR numbers and the operand test, each said once.
-/

namespace Sys2Proof

/-! ## Words as fields -/

theorem append_inj {n m : Nat} {a c : BitVec n} {b d : BitVec m} : a ++ b = c ++ d ↔ a = c ∧ b = d := by
  constructor
  · intro h
    constructor
    · simpa [BitVec.extractLsb'_append_eq_of_le] using congrArg (fun x => x.extractLsb' m n) h
    · simpa [BitVec.extractLsb'_append_eq_of_add_le] using congrArg (fun x => x.extractLsb' 0 m) h
  · rintro ⟨rfl, rfl⟩
    rfl

/-- A word is its five fields side by side (R81). -/
theorem fields_eq (w : Word) :
    (opField w ++ chField w ++ idxField w ++ rsvField w ++ dataField w : BitVec (4 + 4 + 8 + 8 + 8)) = w := by
  unfold opField chField idxField rsvField dataField
  rw [BitVec.extractLsb'_append_extractLsb'_eq_extractLsb' (by omega),
    BitVec.extractLsb'_append_extractLsb'_eq_extractLsb' (by omega),
    BitVec.extractLsb'_append_extractLsb'_eq_extractLsb' (by omega),
    BitVec.extractLsb'_append_extractLsb'_eq_extractLsb' (by omega)]
  simp

/-- A word whose RSV field is 0 is the packing of its other fields. -/
theorem packWord_fields (w : Word) (h : rsvField w = 0#8) :
    packWord (opField w) (chField w) (idxField w) (dataField w) = w := by
  have hw := fields_eq w
  rw [h] at hw
  exact hw

/-- Two words are equal if their fields are. -/
theorem word_ext {w v : Word} (h1 : opField w = opField v) (h2 : chField w = chField v)
    (h3 : idxField w = idxField v) (h4 : rsvField w = rsvField v) (h5 : dataField w = dataField v) : w = v := by
  have hw := fields_eq w
  rw [h1, h2, h3, h4, h5] at hw
  exact hw.symm.trans (fields_eq v)

@[simp] theorem opField_packWord (op ch : BitVec 4) (idx data : BitVec 8) :
    opField (packWord op ch idx data) = op := by
  have h : (op ++ ch ++ idx ++ 0#8 ++ data).extractLsb' 28 4 = op := by
    rw [BitVec.extractLsb'_append_eq_of_le (by omega), BitVec.extractLsb'_append_eq_of_le (by omega),
      BitVec.extractLsb'_append_eq_of_le (by omega), BitVec.extractLsb'_append_eq_of_le (by omega)]
    simp
  exact h

@[simp] theorem chField_packWord (op ch : BitVec 4) (idx data : BitVec 8) :
    chField (packWord op ch idx data) = ch := by
  have h : (op ++ ch ++ idx ++ 0#8 ++ data).extractLsb' 24 4 = ch := by
    rw [BitVec.extractLsb'_append_eq_of_le (by omega), BitVec.extractLsb'_append_eq_of_le (by omega),
      BitVec.extractLsb'_append_eq_of_le (by omega), BitVec.extractLsb'_append_eq_of_add_le (by omega)]
    simp
  exact h

@[simp] theorem idxField_packWord (op ch : BitVec 4) (idx data : BitVec 8) :
    idxField (packWord op ch idx data) = idx := by
  have h : (op ++ ch ++ idx ++ 0#8 ++ data).extractLsb' 16 8 = idx := by
    rw [BitVec.extractLsb'_append_eq_of_le (by omega), BitVec.extractLsb'_append_eq_of_le (by omega),
      BitVec.extractLsb'_append_eq_of_add_le (by omega)]
    simp
  exact h

@[simp] theorem rsvField_packWord (op ch : BitVec 4) (idx data : BitVec 8) :
    rsvField (packWord op ch idx data) = 0#8 := by
  have h : (op ++ ch ++ idx ++ 0#8 ++ data).extractLsb' 8 8 = 0#8 := by
    rw [BitVec.extractLsb'_append_eq_of_le (by omega), BitVec.extractLsb'_append_eq_of_add_le (by omega)]
    simp
  exact h

@[simp] theorem dataField_packWord (op ch : BitVec 4) (idx data : BitVec 8) :
    dataField (packWord op ch idx data) = data := by
  have h : (op ++ ch ++ idx ++ 0#8 ++ data).extractLsb' 0 8 = data := by
    rw [BitVec.extractLsb'_append_eq_of_add_le (by omega)]
    simp
  exact h

/-- A mask and match test of R83, field by field. -/
theorem mask_fields (m1 m2 : BitVec 4) (m3 m4 m5 : BitVec 8) (v1 v2 : BitVec 4) (v3 v4 v5 : BitVec 8) (w : Word) :
    (w &&& (m1 ++ m2 ++ m3 ++ m4 ++ m5 : BitVec (4 + 4 + 8 + 8 + 8)) =
      (v1 ++ v2 ++ v3 ++ v4 ++ v5 : BitVec (4 + 4 + 8 + 8 + 8))) ↔
    opField w &&& m1 = v1 ∧ chField w &&& m2 = v2 ∧ idxField w &&& m3 = v3 ∧ rsvField w &&& m4 = v4 ∧
      dataField w &&& m5 = v5 := by
  have key : ∀ (a b : BitVec 4) (c d e : BitVec 8),
      ((a ++ b ++ c ++ d ++ e) &&& (m1 ++ m2 ++ m3 ++ m4 ++ m5) = (v1 ++ v2 ++ v3 ++ v4 ++ v5)) ↔
        a &&& m1 = v1 ∧ b &&& m2 = v2 ∧ c &&& m3 = v3 ∧ d &&& m4 = v4 ∧ e &&& m5 = v5 := by
    intro a b c d e
    rw [BitVec.and_append, BitVec.and_append, BitVec.and_append, BitVec.and_append]
    simp only [append_inj, and_assoc]
  have h := key (opField w) (chField w) (idxField w) (rsvField w) (dataField w)
  rw [fields_eq w] at h
  exact h

@[simp] theorem and_ones4 (x : BitVec 4) : x &&& 0xF#4 = x := BitVec.and_allOnes
@[simp] theorem and_ones8 (x : BitVec 8) : x &&& 0xFF#8 = x := BitVec.and_allOnes

/-! ## CSR numbers -/

@[simp] theorem Csr.ofNum_num (r : Csr) : Csr.ofNum r.num = some r := by cases r <;> rfl

/-- The number a register was named by is its number. -/
theorem Csr.num_of_ofNum {i : BitVec 8} {r : Csr} (h : Csr.ofNum i = some r) : r.num = i := by
  unfold Csr.ofNum at h
  split at h <;> cases h <;> exact BitVec.eq_of_toNat_eq (Eq.symm ‹_›)

/-- Both directions at once. -/
theorem Csr.ofNum_eq_some_iff {i : BitVec 8} {r : Csr} : Csr.ofNum i = some r ↔ r.num = i :=
  ⟨Csr.num_of_ofNum, fun h => h ▸ Csr.ofNum_num r⟩

/-! ## The operand test -/

/-- The decoder's operand test passes exactly the well-formed instructions. -/
theorem operandFault_eq_none_iff (cfg : Config) (i : Instr) :
    operandFault cfg i = none ↔ i.wellFormed cfg = true := by
  cases i with
  | csrr c r => cases r <;> simp [operandFault, Instr.wellFormed, csrReadable, Csr.perChannel, chanExists]
  | csrw c r =>
    cases r <;> simp [operandFault, Instr.wellFormed, csrReadable, csrWritable, chanExists] <;> split <;> simp
  | _ => simp [operandFault, Instr.wellFormed, chanExists]

/-- What `decode` answers, from what the fields spell and the operand test. -/
theorem decode_eq_ok_iff (cfg : Config) (w : Word) (i : Instr) :
    decode cfg w = .ok i ↔ decodeFields w = .ok i ∧ i.wellFormed cfg = true := by
  rw [← operandFault_eq_none_iff]
  unfold decode
  split
  · rename_i e he
    simp [he]
  · rename_i j hj
    rw [hj]
    split
    · rename_i hn
      constructor
      · intro h
        cases h
        exact ⟨rfl, hn⟩
      · rintro ⟨h, -⟩
        exact h
    · rename_i e he
      constructor
      · intro h
        cases h
      · rintro ⟨h, hn⟩
        cases h
        rw [hn] at he
        cases he

/-- The legality test is that the word decodes. -/
theorem legal_iff (cfg : Config) (w : Word) : legal cfg w = true ↔ ∃ i, decode cfg w = .ok i := by
  unfold legal
  cases decode cfg w <;> simp

end Sys2Proof
end

