-- ==== Sys2Proof/Laws/Dedup.lean ====
section
/-!
SUPPORT. Laws/Dedup.lean: the scan finds exactly the pair it looks for, and what each cache update does to the pairs.
-/

namespace Sys2Proof.Machine

/-! ## Entries -/

@[simp] theorem Entry.record_frame (slot : Entry) (c : ChanNo) (key : List Byte) (now : Time) :
    (slot.record c key now).frame = key := by
  simp [Entry.frame]

/-- The match of R153 is equality of sender and stored frame, for an entry whose frame fits its key. -/
theorem Entry.holds_iff (e : Entry) (c : ChanNo) (key : List Byte) (h : e.klen ≤ e.key.length) :
    e.holds c key = true ↔ (e.snd, e.frame) = (c, key) := by
  simp only [Entry.holds, Entry.frame, Bool.and_eq_true, beq_iff_eq, Prod.mk.injEq]
  constructor
  · rintro ⟨⟨h1, h2⟩, h3⟩
    exact ⟨h1, by rw [h2]; exact h3⟩
  · rintro ⟨h1, h2⟩
    have hk : key.length = e.klen := by
      rw [← h2, List.length_take]
      omega
    exact ⟨⟨h1, hk.symm⟩, by rw [hk]; exact h2⟩

/-! ## The pairs -/

theorem State.used_length (s : State) (h : s.dcount ≤ s.dent.length) : s.used.length = s.dcount := by
  simp [State.used, h]

theorem State.pairs_length (s : State) (h : s.dcount ≤ s.dent.length) : s.pairs.length = s.dcount := by
  simp [State.pairs, State.used, h]

theorem State.pairs_getElem? (s : State) (i : Nat) (h : i < s.dcount) :
    s.pairs[i]? = s.dent[i]?.map (fun e => (e.snd, e.frame)) := by
  simp [State.pairs, State.used, h]

theorem State.Inv.dcount_le_length {s : State} (h : s.Inv) : s.dcount ≤ s.dent.length := by
  rw [h.dent_length]
  exact h.dcount_le

theorem State.Inv.klen_le {s : State} (h : s.Inv) {e : Entry} (he : e ∈ s.used) : e.klen ≤ e.key.length := by
  rw [h.key_length e (List.mem_of_mem_take he)]
  exact (h.used_inv e he).klen_le

/-! ## The scan -/

/-- The scan fails exactly if the pair is not in the cache. -/
theorem State.Inv.scan_eq_none_iff {s : State} (h : s.Inv) (c : ChanNo) (key : List Byte) :
    s.scan c key = none ↔ (c, key) ∉ s.pairs := by
  simp only [State.scan, State.pairs, List.findIdx?_eq_none_iff, List.mem_map, not_exists, not_and]
  constructor
  · intro hn e he hp
    have := (Entry.holds_iff e c key (h.klen_le he)).2 hp
    rw [hn e he] at this
    cases this
  · intro hn e he
    rw [← Bool.not_eq_true, Entry.holds_iff e c key (h.klen_le he)]
    exact hn e he

/-- The scan succeeds with the index at which the pair stands. -/
theorem State.Inv.scan_eq_some {s : State} (h : s.Inv) {c : ChanNo} {key : List Byte} {i : Nat}
    (hs : s.scan c key = some i) : i < s.dcount ∧ s.pairs[i]? = some (c, key) := by
  obtain ⟨hi, hp, -⟩ := List.findIdx?_eq_some_iff_getElem.1 hs
  have hmem : (s.dent.take s.dcount)[i] ∈ s.used := List.getElem_mem hi
  have hi' : i < s.dcount := by
    rw [List.length_take] at hi
    omega
  refine ⟨hi', ?_⟩
  have := (Entry.holds_iff _ c key (h.klen_le hmem)).1 hp
  rw [s.pairs_getElem? i hi', ← this]
  have hd : i < s.dent.length := by
    rw [List.length_take] at hi
    omega
  simp [hd]

/-- Where a pair stands, the scan finds it. -/
theorem State.Inv.scan_of_pairs {s : State} (h : s.Inv) {c : ChanNo} {key : List Byte} {i : Nat}
    (hp : s.pairs[i]? = some (c, key)) : s.scan c key = some i := by
  cases hs : s.scan c key with
  | none => exact absurd (List.mem_of_getElem? hp) ((h.scan_eq_none_iff c key).1 hs)
  | some j =>
    have hj := (h.scan_eq_some hs).2
    have hnd := h.pairs_nodup
    obtain ⟨hil, hie⟩ := List.getElem?_eq_some_iff.1 hp
    obtain ⟨hjl, hje⟩ := List.getElem?_eq_some_iff.1 hj
    rw [(List.Nodup.getElem_inj_iff hnd).1 (hje.trans hie.symm)]

/-! ## What the updates do to the pairs -/

theorem State.refreshEntry_pairs (s : State) (i : Nat) : (s.refreshEntry i).pairs = s.pairs := by
  apply List.ext_getElem?
  intro j
  simp only [State.pairs, State.used, State.refreshEntry, List.getElem?_map, List.getElem?_take]
  split
  · rw [List.getElem?_modify]
    split
    · cases s.dent[j]? <;> rfl
    · cases s.dent[j]? <;> rfl
  · rfl

theorem State.insertEntry_pairs (s : State) (c : ChanNo) (key : List Byte) (h : s.dcount < s.dent.length) :
    (s.insertEntry c key).pairs = s.pairs ++ [(c, key)] := by
  have hm : ∀ f : Entry → Entry, (s.dent.modify s.dcount f).take (s.dcount + 1) =
      s.dent.take s.dcount ++ [f s.dent[s.dcount]] := by
    intro f
    apply List.ext_getElem?
    intro j
    rw [List.getElem?_take, List.getElem?_modify, List.getElem?_append, List.getElem?_take, List.length_take]
    by_cases h1 : j < s.dcount
    · have h2 : s.dcount ≠ j := by omega
      have h3 : j < min s.dcount s.dent.length := by omega
      have h4 : j < s.dcount + 1 := by omega
      simp [h1, h2, h3, h4]
    · by_cases h2 : j = s.dcount
      · subst h2
        have h3 : min s.dcount s.dent.length = s.dcount := by omega
        simp [h3, h]
      · have h3 : ¬ j < s.dcount + 1 := by omega
        have h4 : ¬ j < min s.dcount s.dent.length := by omega
        have h5 : j - min s.dcount s.dent.length ≠ 0 := by omega
        simp [h3, h4, h5]
  simp only [State.pairs, State.used, State.insertEntry_dent, State.insertEntry_dcount, hm]
  simp

theorem State.evictEntry_pairs (s : State) (c : ChanNo) (key : List Byte) (h : s.dcount = s.dent.length)
    (hpos : 0 < s.dcount) : (s.evictEntry c key).pairs = s.pairs.drop 1 ++ [(c, key)] := by
  have h1 : (s.dent.drop 1).length + 1 = s.dcount := by
    rw [List.length_drop]
    omega
  simp only [State.pairs, State.used, State.evictEntry_dent, State.evictEntry_dcount]
  rw [List.take_of_length_le (by simp; omega), List.take_of_length_le (by omega)]
  simp

/-! ## seenOrRecord -/

/-- The three things seenOrRecord can do (R154, R156, R157), with what it does to the pairs. -/
theorem State.Inv.seenOrRecord_cases {s : State} (h : s.Inv) (c : ChanNo) (key : List Byte) :
    (∃ i, i < s.dcount ∧ s.pairs[i]? = some (c, key) ∧
      s.seenOrRecord c key = (s.refreshEntry i).respond evDup (BitVec.ofNat 32 i) ∧
      (s.seenOrRecord c key).pairs = s.pairs) ∨
    ((c, key) ∉ s.pairs ∧ s.dcount < s.cfg.n ∧
      s.seenOrRecord c key = (s.insertEntry c key).respond evNone (BitVec.ofNat 32 s.dcount) ∧
      (s.seenOrRecord c key).pairs = s.pairs ++ [(c, key)]) ∨
    ((c, key) ∉ s.pairs ∧ s.dcount = s.cfg.n ∧
      s.seenOrRecord c key = (s.evictEntry c key).respond evEvict (BitVec.ofNat 32 (s.cfg.n - 1)) ∧
      (s.seenOrRecord c key).pairs = s.pairs.drop 1 ++ [(c, key)]) := by
  have hlen := h.dent_length
  have hle := h.dcount_le
  have hpos := h.cfg_ok.n_pos
  cases hs : s.scan c key with
  | some i =>
    have he : s.seenOrRecord c key = (s.refreshEntry i).respond evDup (BitVec.ofNat 32 i) := by
      simp [State.seenOrRecord, hs]
    obtain ⟨hi, hp⟩ := h.scan_eq_some hs
    refine .inl ⟨i, hi, hp, he, ?_⟩
    rw [he]
    exact s.refreshEntry_pairs i
  | none =>
    have hn := (h.scan_eq_none_iff c key).1 hs
    by_cases hd : s.dcount < s.cfg.n
    · have he : s.seenOrRecord c key = (s.insertEntry c key).respond evNone (BitVec.ofNat 32 s.dcount) := by
        simp [State.seenOrRecord, hs, hd]
      refine .inr (.inl ⟨hn, hd, he, ?_⟩)
      rw [he]
      exact s.insertEntry_pairs c key (by omega)
    · have he : s.seenOrRecord c key = (s.evictEntry c key).respond evEvict (BitVec.ofNat 32 (s.cfg.n - 1)) := by
        simp [State.seenOrRecord, hs, hd]
      refine .inr (.inr ⟨hn, by omega, he, ?_⟩)
      rw [he]
      exact s.evictEntry_pairs c key (by omega) (by omega)

end Sys2Proof.Machine
end

