-- ==== Sys2Proof/Laws/Exec.lean ====
section
/-!
SUPPORT. Laws/Exec.lean: what each meaning does on its legal operands, and everything a command can do, said once.
-/

namespace Sys2Proof.Machine

variable {s t : State} {c : ChanNo}

/-! ## Meanings on a channel that exists -/

theorem execFeed_of_chan (h : c.toNat < s.cfg.nch) (b : Byte) :
    execFeed c b s = .next ((s.setChan c ((s.chan c).feed s.cfg s.timeoutMs s.time b).1).respond
      ((s.chan c).feed s.cfg s.timeoutMs s.time b).2 0#32) := by
  simp [execFeed, s.hasChan_iff c, h]

theorem execTick_of_chan (h : c.toNat < s.cfg.nch) :
    execTick c s = .next ((s.setChan c ((s.chan c).timeoutTest s.cfg s.timeoutMs s.time).1).respond
      ((s.chan c).timeoutTest s.cfg s.timeoutMs s.time).2 0#32) := by
  simp [execTick, s.hasChan_iff c, h]

theorem execDedup_of_frame (h : c.toNat < s.cfg.nch) (hv : (s.chan c).ovalid = true) :
    execDedup c s = .next (s.seenOrRecord c (s.chan c).frame) := by
  simp [execDedup, s.hasChan_iff c, h, hv]

theorem execDedup_of_noframe (h : c.toNat < s.cfg.nch) (hv : (s.chan c).ovalid = false) :
    execDedup c s = .next (s.respond evNoframe 0#32) := by
  simp [execDedup, s.hasChan_iff c, h, hv]

/-- A command on a channel that does not exist is illegal. -/
theorem hasChan_false (h : ¬ c.toNat < s.cfg.nch) : s.hasChan c = false := by
  rw [← Bool.not_eq_true, s.hasChan_iff]
  exact h

/-! ## The readouts -/

theorem execDmeta_shape (i : BitVec 8) (s : State) : ∃ v, execDmeta i s = .next (s.respond evNone v) := by
  unfold execDmeta
  split <;> exact ⟨_, rfl⟩

theorem execDtime_shape (i : BitVec 8) (s : State) : ∃ v, execDtime i s = .next (s.respond evNone v) := by
  unfold execDtime
  split <;> exact ⟨_, rfl⟩

theorem execDbyte_shape (i k : BitVec 8) (s : State) : ∃ v, execDbyte i k s = .next (s.respond evNone v) := by
  unfold execDbyte
  split <;> exact ⟨_, rfl⟩

/-- A read-only command is illegal or answers a value, and changes nothing else. -/
theorem exec_readOnly (i : Instr) (s : State) (h : readOnly i = true) :
    exec i s = .next s.illegal ∨ ∃ v, exec i s = .next (s.respond evNone v) := by
  cases i with
  | nop => exact .inr ⟨_, rfl⟩
  | dmeta e => exact .inr (execDmeta_shape e s)
  | dtime e => exact .inr (execDtime_shape e s)
  | dbyte e k => exact .inr (execDbyte_shape e k s)
  | fmeta c =>
    simp only [exec, execFmeta]
    split
    · exact .inr ⟨_, rfl⟩
    · exact .inl rfl
  | fbyte c k =>
    simp only [exec, execFbyte]
    split
    · exact .inr ⟨_, rfl⟩
    · exact .inl rfl
  | bbyte c k =>
    simp only [exec, execBbyte]
    split
    · exact .inr ⟨_, rfl⟩
    · exact .inl rfl
  | csrr c r =>
    simp only [exec, execCsrr]
    split
    · exact .inr ⟨_, rfl⟩
    · exact .inl rfl
  | feed c b => cases h
  | tick c => cases h
  | dedup c => cases h
  | csrw c r => cases h

/-- CSRW writes TIMEOUT_MS or is illegal. -/
theorem execCsrw_cases (c : ChanNo) (r : Csr) (s : State) :
    (c = 0#4 ∧ r = .timeoutMs ∧ execCsrw c r s =
      .next (State.respond { s with timeoutMs := truncTime s.cfg s.inp.wdata } evNone 0#32)) ∨
    ((c ≠ 0#4 ∨ r ≠ .timeoutMs) ∧ execCsrw c r s = .next s.illegal) := by
  by_cases hc : c = 0#4
  · subst hc
    cases r
    · exact .inl ⟨rfl, rfl, rfl⟩
    all_goals exact .inr ⟨.inr (by simp), rfl⟩
  · refine .inr ⟨.inl hc, ?_⟩
    have hb : (c == 0#4) = false := by simpa using hc
    unfold execCsrw
    rw [hb]
    cases r <;> rfl

/-! ## Everything a command can do -/

/-- The next state of a command: the illegal response; a read-out value; one channel fed or tested; the cache consulted; or
TIMEOUT_MS written. -/
theorem exec_next_cases {i : Instr} (h : exec i s = .next t) :
    t = s.illegal ∨
    (readOnly i = true ∧ ∃ v, t = s.respond evNone v) ∨
    (∃ c b, i = .feed c b ∧ c.toNat < s.cfg.nch ∧
      t = (s.setChan c ((s.chan c).feed s.cfg s.timeoutMs s.time b).1).respond
        ((s.chan c).feed s.cfg s.timeoutMs s.time b).2 0#32) ∨
    (∃ c, i = .tick c ∧ c.toNat < s.cfg.nch ∧
      t = (s.setChan c ((s.chan c).timeoutTest s.cfg s.timeoutMs s.time).1).respond
        ((s.chan c).timeoutTest s.cfg s.timeoutMs s.time).2 0#32) ∨
    (∃ c, i = .dedup c ∧ c.toNat < s.cfg.nch ∧
      (((s.chan c).ovalid = false ∧ t = s.respond evNoframe 0#32) ∨
       ((s.chan c).ovalid = true ∧ t = s.seenOrRecord c (s.chan c).frame))) ∨
    (i = .csrw 0#4 .timeoutMs ∧
      t = State.respond { s with timeoutMs := truncTime s.cfg s.inp.wdata } evNone 0#32) := by
  by_cases hr : readOnly i = true
  · rcases exec_readOnly i s hr with he | ⟨v, he⟩ <;> rw [he] at h <;> cases h
    · exact .inl rfl
    · exact .inr (.inl ⟨hr, v, rfl⟩)
  · cases i with
    | feed c b =>
      by_cases hc : c.toNat < s.cfg.nch
      · rw [exec, execFeed_of_chan hc] at h
        cases h
        exact .inr (.inr (.inl ⟨c, b, rfl, hc, rfl⟩))
      · simp only [exec, execFeed, hasChan_false hc] at h
        cases h
        exact .inl rfl
    | tick c =>
      by_cases hc : c.toNat < s.cfg.nch
      · rw [exec, execTick_of_chan hc] at h
        cases h
        exact .inr (.inr (.inr (.inl ⟨c, rfl, hc, rfl⟩)))
      · simp only [exec, execTick, hasChan_false hc] at h
        cases h
        exact .inl rfl
    | dedup c =>
      by_cases hc : c.toNat < s.cfg.nch
      · cases hv : (s.chan c).ovalid
        · rw [exec, execDedup_of_noframe hc hv] at h
          cases h
          exact .inr (.inr (.inr (.inr (.inl ⟨c, rfl, hc, .inl ⟨hv, rfl⟩⟩))))
        · rw [exec, execDedup_of_frame hc hv] at h
          cases h
          exact .inr (.inr (.inr (.inr (.inl ⟨c, rfl, hc, .inr ⟨hv, rfl⟩⟩))))
      · simp only [exec, execDedup, hasChan_false hc] at h
        cases h
        exact .inl rfl
    | csrw c r =>
      rcases execCsrw_cases c r s with ⟨rfl, rfl, he⟩ | ⟨-, he⟩
      · rw [exec, he] at h
        cases h
        exact .inr (.inr (.inr (.inr (.inr ⟨rfl, rfl⟩))))
      · rw [exec, he] at h
        cases h
        exact .inl rfl
    | _ => exact absurd rfl hr

/-! ## Everything a step can do -/

/-- The next state of a step: nothing presented; a reset; a command executed; or an illegal word reported. -/
theorem step_next_cases (h : step s = .next t) :
    (s.queue = [] ∧ t = s) ∨
    ∃ p rest, s.queue = p :: rest ∧
      ((p.rst = true ∧ t = State.applyReset { s with inp := p, queue := rest }) ∨
       (p.rst = false ∧ ∃ i, decode s.cfg p.cmd = .ok i ∧ exec i { s with inp := p, queue := rest } = .next t) ∨
       (p.rst = false ∧ (∃ e, decode s.cfg p.cmd = .error e) ∧
         t = State.illegal { s with inp := p, queue := rest })) := by
  cases hq : s.queue with
  | nil =>
    rw [step, State.accept_nil hq] at h
    cases h
    exact .inl ⟨rfl, rfl⟩
  | cons p rest =>
    refine .inr ⟨p, rest, rfl, ?_⟩
    rw [step, State.accept_cons hq] at h
    cases hr : p.rst with
    | true =>
      simp only [hr, if_true] at h
      cases h
      exact .inl ⟨rfl, rfl⟩
    | false =>
      simp only [hr, Bool.false_eq_true, if_false] at h
      cases hd : decode s.cfg p.cmd with
      | ok i =>
        simp only [hd] at h
        exact .inr (.inl ⟨rfl, i, rfl, h⟩)
      | error e =>
        simp only [hd] at h
        cases h
        exact .inr (.inr ⟨rfl, ⟨e, rfl⟩, rfl⟩)

/-- seenOrRecord writes nothing but the cache and the response. -/
theorem State.seenOrRecord_frame (s : State) (c : ChanNo) (key : List Byte) :
    s.seenOrRecord c key = { s with
      dent := (s.seenOrRecord c key).dent, dcount := (s.seenOrRecord c key).dcount,
      ev := (s.seenOrRecord c key).ev, rdata := (s.seenOrRecord c key).rdata } := by
  unfold State.seenOrRecord
  split
  · rfl
  · split <;> rfl

end Sys2Proof.Machine
end

