-- ==== Sys2Proof/Laws/PerInstr.lean ====
section
/-!
SUPPORT. Laws/PerInstr.lean: per-instruction facts about the encoding, one lemma per constructor of Instr.
-/

namespace Sys2Proof.Laws.RsvZero

/-- Every instruction's word has 0 in the reserved field, bits 15:8 (spec/30_encoding.md R81). -/
def Statement (i : Instr) : Prop := rsvField (encode i) = 0#8

theorem nop : Statement .nop := rsvField_packWord _ _ _ _
theorem feed (c : ChanNo) (b : Byte) : Statement (.feed c b) := rsvField_packWord _ _ _ _
theorem tick (c : ChanNo) : Statement (.tick c) := rsvField_packWord _ _ _ _
theorem dedup (c : ChanNo) : Statement (.dedup c) := rsvField_packWord _ _ _ _
theorem dmeta (i : BitVec 8) : Statement (.dmeta i) := rsvField_packWord _ _ _ _
theorem dtime (i : BitVec 8) : Statement (.dtime i) := rsvField_packWord _ _ _ _
theorem dbyte (i k : BitVec 8) : Statement (.dbyte i k) := rsvField_packWord _ _ _ _
theorem fmeta (c : ChanNo) : Statement (.fmeta c) := rsvField_packWord _ _ _ _
theorem fbyte (c : ChanNo) (k : BitVec 8) : Statement (.fbyte c k) := rsvField_packWord _ _ _ _
theorem bbyte (c : ChanNo) (k : BitVec 8) : Statement (.bbyte c k) := rsvField_packWord _ _ _ _
theorem csrr (c : ChanNo) (r : Csr) : Statement (.csrr c r) := rsvField_packWord _ _ _ _
theorem csrw (c : ChanNo) (r : Csr) : Statement (.csrw c r) := rsvField_packWord _ _ _ _

end Sys2Proof.Laws.RsvZero
end

