-- ==== Sys2Proof/Tests/Slice0.lean ====
section
/-!
SUPPORT. Tests/Slice0.lean: the well-formedness smoke test, decodings of words written out from spec/30_encoding.md, one-step
tests whose results stand in spec/95_test_vectors.md (the vector is named in each comment), and a witness for the hypotheses
of every obligation that has some.
-/

namespace Sys2Proof.Tests

open Sys2Proof Sys2Proof.Machine

/-! ## Well-formedness: one ill-formed term per check -/

theorem test_wellFormed_refuses_feed_channel : (Instr.feed 2#4 0x55#8).wellFormed .default = false := by decide
theorem test_wellFormed_refuses_tick_channel : (Instr.tick 2#4).wellFormed .default = false := by decide
theorem test_wellFormed_refuses_dedup_channel : (Instr.dedup 15#4).wellFormed .default = false := by decide
theorem test_wellFormed_refuses_fmeta_channel : (Instr.fmeta 2#4).wellFormed .default = false := by decide
theorem test_wellFormed_refuses_fbyte_channel : (Instr.fbyte 2#4 0#8).wellFormed .default = false := by decide
theorem test_wellFormed_refuses_bbyte_channel : (Instr.bbyte 3#4 0#8).wellFormed .default = false := by decide
theorem test_wellFormed_refuses_global_csr_on_a_channel :
    (Instr.csrr 1#4 .capr).wellFormed .default = false := by decide
theorem test_wellFormed_refuses_channel_csr_past_nch :
    (Instr.csrr 2#4 .chLen).wellFormed .default = false := by decide
theorem test_wellFormed_refuses_readonly_csrw : (Instr.csrw 0#4 .capr).wellFormed .default = false := by decide
theorem test_wellFormed_refuses_csrw_channel : (Instr.csrw 1#4 .timeoutMs).wellFormed .default = false := by decide

/-! ## Decoding: OP, CH, IDX, RSV, DATA written side by side (R81, R82) -/

theorem test_decode_nop : decode .default 0b0000_0000_00000000_00000000_00000000#32 = .ok .nop := by decide
theorem test_decode_feed :
    decode .default 0b0001_0001_00000000_00000000_11110000#32 = .ok (.feed 1#4 0xF0#8) := by decide
theorem test_decode_tick : decode .default 0b0010_0001_00000000_00000000_00000000#32 = .ok (.tick 1#4) := by decide
theorem test_decode_dedup : decode .default 0b0011_0001_00000000_00000000_00000000#32 = .ok (.dedup 1#4) := by decide
theorem test_decode_dmeta : decode .default 0b0100_0000_11111111_00000000_00000000#32 = .ok (.dmeta 255#8) := by decide
theorem test_decode_dtime : decode .default 0b0101_0000_00000001_00000000_00000000#32 = .ok (.dtime 1#8) := by decide
theorem test_decode_dbyte :
    decode .default 0b0110_0000_01100011_00000000_00000011#32 = .ok (.dbyte 99#8 3#8) := by decide
theorem test_decode_fmeta : decode .default 0b0111_0001_00000000_00000000_00000000#32 = .ok (.fmeta 1#4) := by decide
theorem test_decode_fbyte :
    decode .default 0b1000_0000_00000000_00000000_11111111#32 = .ok (.fbyte 0#4 255#8) := by decide
theorem test_decode_bbyte :
    decode .default 0b1001_0001_00000000_00000000_00000010#32 = .ok (.bbyte 1#4 2#8) := by decide
theorem test_decode_csrr :
    decode .default 0b1010_0001_00010001_00000000_00000000#32 = .ok (.csrr 1#4 .chTlast) := by decide
theorem test_decode_csrw :
    decode .default 0b1011_0000_00000000_00000000_00000000#32 = .ok (.csrw 0#4 .timeoutMs) := by decide

/-- 95_test_vectors.md 2.6: the illegal words, with R84's reason. -/
theorem test_decode_illegal_words :
    decode .default 0xC0000000#32 = .error .reservedOpcode ∧ decode .default 0xF0000000#32 = .error .reservedOpcode ∧
    decode .default 0x10000100#32 = .error .reservedField ∧ decode .default 0x60000100#32 = .error .reservedField ∧
    decode .default 0x00000001#32 = .error .unusedField ∧ decode .default 0x10010055#32 = .error .unusedField ∧
    decode .default 0x20000001#32 = .error .unusedField ∧ decode .default 0x30000001#32 = .error .unusedField ∧
    decode .default 0x70010000#32 = .error .unusedField ∧ decode .default 0x41000000#32 = .error .unusedField ∧
    decode .default 0xA0000001#32 = .error .unusedField ∧ decode .default 0x12000055#32 = .error .badChannel ∧
    decode .default 0xA1000000#32 = .error .badChannel ∧ decode .default 0xB1000000#32 = .error .badChannel ∧
    decode .default 0xA2100000#32 = .error .badChannel ∧ decode .default 0xA0070000#32 = .error .unimplementedCsr ∧
    decode .default 0xB0010000#32 = .error .readOnlyCsr ∧ decode .default 0xB0100000#32 = .error .readOnlyCsr := by
  decide

/-! ## Small states -/

/-- Two channels of 8 bytes, two cache entries, 16-bit times, a timeout of 100 ms. -/
def cfg8 : Config :=
  { nch := 2, cap := 8, marker0 := 0x55#8, marker1 := 0xAA#8, n := 2, timeW := 16, timeoutReset := 100#32 }

def pad (bs : List Byte) : List Byte := bs ++ List.replicate (8 - bs.length) 0#8

/-- The frames of 95_test_vectors.md section 2. -/
def frameA : List Byte := [0x55, 0xAA, 0x00, 0x01]
def frameB : List Byte := [0x55, 0xAA, 0x01, 0x10, 0xF0]
def frameC : List Byte := [0x55, 0xAA, 0x02, 0x12, 0x34, 0xB9]
def frameX : List Byte := [0x55, 0x00, 0x00, 0xAB]
def frame8 : List Byte := [0x55, 0xAA, 0x04, 0x00, 0x00, 0x00, 0x00, 0xFD]

/-- A channel with this frame in progress, last fed at time tl, and this last frame. -/
def chanOf (bs : List Byte) (tl : Time) (fr : List Byte) : Channel :=
  { buf := pad bs, len := bs.length, tlast := tl, oframe := pad fr, olen := fr.length, ovalid := fr ≠ [] }

def entryOf (c : ChanNo) (fr : List Byte) (ts : Time) : Entry :=
  { snd := c, klen := fr.length, key := pad fr, ts := ts }

/-- The block with these channels and cache entries, a command being presented at `now`. -/
def stateOf (c0 c1 : Channel) (es : List Entry) (now : Time) : State :=
  { State.resetOf cfg8 with
    chans := [c0, c1]
    dcount := es.length
    dent := es ++ List.replicate (2 - es.length) (Entry.reset cfg8)
    inp := { HostIn.quiet with now := now } }

/-- A state right after reset, a command being presented at `now`. -/
def fresh (now : Time) : State := stateOf (chanOf [] 0 []) (chanOf [] 0 []) [] now

/-- Channel 0 holds bytes received at time 10. -/
def holding (bs : List Byte) (now : Time) : State := stateOf (chanOf bs 10 []) (chanOf [] 0 []) [] now

/-- Frames on both channels, a full cache. -/
def full (fr : List Byte) (now : Time) : State :=
  stateOf (chanOf [] 10 fr) (chanOf [] 11 frameA) [entryOf 0 frameA 1, entryOf 0 frameB 2] now

/-- Frames on both channels, one entry. -/
def oneEntry (now : Time) : State :=
  stateOf (chanOf [0x55, 0xAA] 10 frameA) (chanOf [] 11 frameA) [entryOf 0 frameA 7] now

/-- Present a word next. -/
def present (s : State) (w : Word) : State := s.withFetchWord 32 w.toNat

def out (o : Out) : Option (Ev × Word) :=
  match o with
  | .next t => some (t.ev, t.rdata)
  | .fault _ => none
  | .refused _ => none

def nextOf (o : Out) : State :=
  match o with
  | .next t => t
  | .fault _ => State.reset
  | .refused _ => State.reset

/-- An outcome that is a next state is that of `nextOf`. -/
theorem next_nextOf (o : Out) (h : (out o).isSome = true) : o = .next (nextOf o) := by
  cases o with
  | next t => rfl
  | fault r => cases r
  | refused r => cases h

/-! ## One step each -/

theorem test_nop : step (present (fresh 3) 0x00000000#32) =
    .next { fresh 3 with inp := { HostIn.quiet with now := 3 } } := rfl

/-- V-A7: a byte dropped while hunting; V-A22: it updates TLAST. -/
theorem test_feed_drops : out (step (present (fresh 7) 0x10000000#32)) = some (0x0010#16, 0#32) ∧
    ((nextOf (step (present (fresh 7) 0x10000000#32))).chan 0#4).tlast = 7#32 := by decide
/-- V-A1: the fourth byte of FA. -/
theorem test_feed_emits : out (step (present (holding [0x55, 0xAA, 0x00] 10) 0x10000001#32)) = some (0x0001#16, 0#32) ∧
    ((nextOf (step (present (holding [0x55, 0xAA, 0x00] 10) 0x10000001#32))).chan 0#4) =
      { chanOf [0x55, 0xAA, 0x00, 0x01] 10 frameA with len := 0 } := by decide
/-- V-T2 with a timeout of 100: nothing at elapsed 100, a discard at 101. -/
theorem test_tick_boundary : out (step (present (holding [0x55, 0xAA] 110) 0x20000000#32)) = some (0#16, 0#32) ∧
    out (step (present (holding [0x55, 0xAA] 111) 0x20000000#32)) = some (0x0008#16, 0#32) := by decide
/-- V-T4: the other channel is left alone. -/
theorem test_tick_other_channel :
    ((nextOf (step (present (holding [0x55, 0xAA] 9999) 0x21000000#32))).chan 0#4).len = 2 := by decide
/-- V-D4: the same bytes from another sender are a new pair. -/
theorem test_dedup_inserts : out (step (present (oneEntry 8) 0x31000000#32)) = some (0#16, 1#32) ∧
    (nextOf (step (present (oneEntry 8) 0x31000000#32))).dent = [entryOf 0 frameA 7, entryOf 1 frameA 8] := by decide
/-- V-D5: FC evicts FA. -/
theorem test_dedup_evicts : out (step (present (full frameC 3) 0x30000000#32)) = some (0x0040#16, 1#32) ∧
    (nextOf (step (present (full frameC 3) 0x30000000#32))).dent = [entryOf 0 frameB 2, entryOf 0 frameC 3] := by decide
/-- V-D4: entry 1 of sender 1. -/
theorem test_dmeta : out (step (present (stateOf (chanOf [] 0 []) (chanOf [] 0 [])
    [entryOf 0 frameA 1, entryOf 1 frameA 2] 5) 0x40010000#32)) = some (0#16, 0x81000004#32) := by decide
/-- V-D8: an unused entry, past N too. -/
theorem test_dmeta_unused : out (step (present (oneEntry 5) 0x40010000#32)) = some (0#16, 0#32) ∧
    out (step (present (oneEntry 5) 0x40FF0000#32)) = some (0#16, 0#32) := by decide
/-- V-D2: the timestamp. -/
theorem test_dtime : out (step (present (oneEntry 50) 0x50000000#32)) = some (0#16, 7#32) := by decide
/-- V-D2: key bytes, and 0 at KLEN. -/
theorem test_dbyte : out (step (present (oneEntry 5) 0x60000001#32)) = some (0#16, 0xAA#32) ∧
    out (step (present (oneEntry 5) 0x60000004#32)) = some (0#16, 0#32) := by decide
/-- V-A1 and V-R2: a frame, and none. -/
theorem test_fmeta : out (step (present (oneEntry 5) 0x70000000#32)) = some (0#16, 0x80000004#32) ∧
    out (step (present (fresh 5) 0x70000000#32)) = some (0#16, 0#32) := by decide
/-- V-R3. -/
theorem test_fbyte : out (step (present (oneEntry 5) 0x80000003#32)) = some (0#16, 0x01#32) ∧
    out (step (present (oneEntry 5) 0x80000004#32)) = some (0#16, 0#32) := by decide
/-- V-R4: a stale partial frame is visible. -/
theorem test_bbyte : out (step (present (oneEntry 9000) 0x90000001#32)) = some (0#16, 0xAA#32) ∧
    out (step (present (oneEntry 9000) 0x90000002#32)) = some (0#16, 0#32) := by decide
/-- V-C1: MARKERR and TIMEOUT_MS after reset with the default parameters. -/
theorem test_csrr_global : out (step (present State.reset 0xA0050000#32)) = some (0#16, 0xAA55#32) ∧
    out (step (present State.reset 0xA0000000#32)) = some (0#16, 0x1388#32) := by decide
/-- CH_LEN and CH_TLAST, as in V-I1. -/
theorem test_csrr_channel : out (step (present (oneEntry 9000) 0xA0100000#32)) = some (0#16, 2#32) ∧
    out (step (present (oneEntry 9000) 0xA1110000#32)) = some (0#16, 11#32) := by decide
/-- V-C3: TIME_W = 16 ignores wdata[31:16]. -/
theorem test_csrw : (nextOf (step { fresh 0 with
    queue := [{ cmd := 0xB0000000#32, now := 0, wdata := 0x00012345#32, rst := false }] })).timeoutMs = 0x2345#32 := by
  decide
/-- V-I1: an illegal FEED runs no timeout test and writes no TLAST. -/
theorem test_illegal : step (present (holding [0x55, 0xAA] 9000) 0x10000155#32) =
    .next { holding [0x55, 0xAA] 9000 with
      inp := { cmd := 0x10000155#32, now := 9000, wdata := 0, rst := false }, ev := 0x0100#16 } := rfl
/-- R240: a reset, the command presented with it not executed. -/
theorem test_reset : (nextOf (step { full frameC 3 with
    queue := [{ cmd := 0x10000055#32, now := 3, wdata := 0, rst := true }] })).chans = (State.resetOf cfg8).chans ∧
    (nextOf (step { full frameC 3 with
      queue := [{ cmd := 0x10000055#32, now := 3, wdata := 0, rst := true }] })).dcount = 0 := by decide
/-- V-K2, V-K5, V-K8, V-K13, V-K15. -/
theorem test_checksum : compute [0x55, 0xAA, 0x00] = 0x01#8 ∧ compute [0x55, 0xAA, 0x01, 0x00] = 0x00#8 ∧
    compute [0x80, 0x80] = 0x00#8 ∧ validate [0x55, 0xAA, 0x01, 0x11, 0xEF] = true ∧ validate frameX = true := by decide

/-! ## The invariant on concrete states -/

def validB (cfg : Config) (f : List Byte) : Bool :=
  f.getD 0 0#8 == cfg.marker0 && f.length == (f.getD 2 0#8).toNat + 4 && decide (f.length ≤ cfg.cap) && sum8 f == 0

theorem valid_of_check {cfg : Config} {f : List Byte} (h : validB cfg f = true) : ValidFrame cfg f := by
  simp only [validB, Bool.and_eq_true, beq_iff_eq, decide_eq_true_eq] at h
  exact ⟨h.1.1.1, h.1.1.2, h.1.2, h.2⟩

def okB (cfg : Config) : Bool :=
  decide (1 ≤ cfg.nch ∧ cfg.nch ≤ 16 ∧ 4 ≤ cfg.cap ∧ cfg.cap ≤ 256 ∧ 1 ≤ cfg.n ∧ cfg.n ≤ 256 ∧ 16 ≤ cfg.timeW ∧
    cfg.timeW ≤ 32 ∧ cfg.timeoutReset.toNat < 2 ^ cfg.timeW)

theorem ok_of_check {cfg : Config} (h : okB cfg = true) : cfg.Ok := by
  obtain ⟨h1, h2, h3, h4, h5, h6, h7, h8, h9⟩ := of_decide_eq_true h
  exact ⟨h1, h2, h3, h4, h5, h6, h7, h8, h9⟩

def chanB (cfg : Config) (ch : Channel) : Bool :=
  decide (ch.buf.length = cfg.cap ∧ ch.oframe.length = cfg.cap ∧ ch.len < cfg.cap ∧ ch.tlast.toNat < 2 ^ cfg.timeW ∧
    (0 < ch.len → ch.buf.getD 0 0#8 = cfg.marker0) ∧ (3 ≤ ch.len → ch.len < (ch.buf.getD 2 0#8).toNat + 4) ∧
    ch.olen ≤ cfg.cap ∧ (ch.ovalid = false → ch.olen = 0) ∧ (ch.ovalid = true → validB cfg ch.frame = true))

theorem chan_of_check {cfg : Config} {ch : Channel} (h : chanB cfg ch = true) : ch.Inv cfg := by
  obtain ⟨h1, h2, h3, h4, h5, h6, h7, h8, h9⟩ := of_decide_eq_true h
  exact ⟨h1, h2, h3, h4, h5, h6, h7, h8, fun hv => valid_of_check (h9 hv)⟩

def entryB (cfg : Config) (e : Entry) : Bool :=
  decide (e.snd.toNat < cfg.nch ∧ e.klen ≤ cfg.cap ∧ e.ts.toNat < 2 ^ cfg.timeW) && validB cfg e.frame

theorem entry_of_check {cfg : Config} {e : Entry} (h : entryB cfg e = true) : e.Inv cfg := by
  simp only [entryB, Bool.and_eq_true, decide_eq_true_eq] at h
  exact ⟨h.1.1, h.1.2.1, h.1.2.2, valid_of_check h.2⟩

def invB (s : State) : Bool :=
  okB s.cfg && s.chans.all (chanB s.cfg) && s.used.all (entryB s.cfg) &&
  decide (s.chans.length = s.cfg.nch ∧ s.timeoutMs.toNat < 2 ^ s.cfg.timeW ∧ s.dent.length = s.cfg.n ∧
    s.dcount ≤ s.cfg.n ∧ (∀ e ∈ s.dent, e.key.length = s.cfg.cap) ∧ s.pairs.Nodup)

theorem inv_of_check {s : State} (h : invB s = true) : s.Inv := by
  simp only [invB, Bool.and_eq_true, List.all_eq_true, decide_eq_true_eq] at h
  obtain ⟨⟨⟨h1, h2⟩, h3⟩, h4, h5, h6, h7, h8, h9⟩ := h
  exact ⟨ok_of_check h1, h4, fun ch hc => chan_of_check (h2 ch hc), h5, h6, h7, h8,
    fun e he => entry_of_check (h3 e he), h9⟩

theorem fresh_inv : (fresh 7).Inv := inv_of_check (by decide)
theorem holding_inv : (holding [0x55, 0xAA] 20).Inv := inv_of_check (by decide)
theorem full_inv : (full frameC 3).Inv := inv_of_check (by decide)
theorem oneEntry_inv : (oneEntry 8).Inv := inv_of_check (by decide)

/-! ## Witnesses: every obligation's hypotheses are met -/

theorem witness_DecodeOfEncodeIsIdentity :
    ([.nop, .feed 1 0xFF, .tick 1, .dedup 1, .dmeta 255, .dtime 255, .dbyte 255 255, .fmeta 1, .fbyte 1 255, .bbyte 1 255,
      .csrr 0 .timewr, .csrr 1 .chTlast, .csrw 0 .timeoutMs] : List Instr).all (Instr.wellFormed .default) = true := by
  decide
theorem witness_EncodeOfDecodeIsIdentity : decode cfg8 0xA1110000#32 = .ok (.csrr 1#4 .chTlast) := by decide
theorem witness_IllegalWordsChangeNothing_a : IllegalOpcode 0xC0000000#32 ∧ IllegalOpcode 0xFFFFFFFF#32 := by
  simp only [IllegalOpcode]
  decide
theorem witness_IllegalWordsChangeNothing_b : IllegalReserved 0x10000100#32 ∧ IllegalReserved 0x1000FF00#32 := by
  simp only [IllegalReserved]
  decide
theorem witness_IllegalWordsChangeNothing_c :
    IllegalUnused 0x00000001#32 ∧ IllegalUnused 0x10010055#32 ∧ IllegalUnused 0x61000000#32 := by
  simp only [IllegalUnused]
  refine ⟨?_, ?_, ?_⟩ <;> decide
theorem witness_IllegalWordsChangeNothing_d : IllegalChannel cfg8 0x12000055#32 ∧ IllegalChannel cfg8 0x9F000000#32 ∧
    IllegalChannel cfg8 0xA1060000#32 ∧ IllegalChannel cfg8 0xA2100000#32 := by
  simp only [IllegalChannel]
  decide
theorem witness_IllegalWordsChangeNothing_e :
    IllegalCsr 0xA0070000#32 ∧ IllegalCsr 0xA00F0000#32 ∧ IllegalCsr 0xA0120000#32 ∧ IllegalCsr 0xB0010000#32 := by
  simp only [IllegalCsr]
  decide
theorem witness_IllegalWordsChangeNothing : ∃ (s : State) (p : HostIn), s.queue = p :: [] ∧ p.rst = false ∧
    IsIllegal s.cfg p.cmd :=
  ⟨present (fresh 7) 0x10000100#32, { cmd := 0x10000100#32, now := 7, wdata := 0, rst := false }, by decide, rfl,
    .inr (.inl witness_IllegalWordsChangeNothing_b.1)⟩
theorem witness_CsrNumbersFollowTheMap : (0x07 ≤ (0x07#8).toNat ∧ (0x0F#8).toNat ≤ 0x0F) ∧ 0x12 ≤ (0x12#8).toNat := by
  decide
theorem witness_StepRunsTheDecodedCommand :
    (present (fresh 7) 0x10000055#32).queue = { cmd := 0x10000055#32, now := 7, wdata := 0, rst := false } :: [] ∧
    decode (present (fresh 7) 0x10000055#32).cfg 0x10000055#32 = .ok (.feed 0#4 0x55#8) := by decide
theorem witness_ResetPresentationResets : ∃ (s : State) (p : HostIn), s.queue = p :: [] ∧ p.rst = true :=
  ⟨{ full frameC 3 with queue := [{ cmd := 0, now := 3, wdata := 0, rst := true }] }, _, rfl, rfl⟩
theorem witness_ResetStateHoldsTheResetValues : ∃ ch ∈ (State.resetOf cfg8).chans, ch.len = 0 :=
  ⟨Channel.reset cfg8, by decide, rfl⟩
theorem witness_IdleStepHoldsTheState : State.reset.queue = [] := rfl
theorem witness_CommandsKeepParametersAndHostInputs :
    exec (.tick 0#4) (fresh 7) = .next (fresh 7) := rfl
theorem witness_IllFormedInstructionsChangeNothing :
    (Instr.feed 2#4 0x55#8).wellFormed (fresh 7).cfg = false ∧
    (Instr.csrr 1#4 .capr).wellFormed (fresh 7).cfg = false ∧
    (Instr.csrw 0#4 .chLen).wellFormed (fresh 7).cfg = false := by decide
theorem witness_LegalCommandsRaiseOnlyTheirEvents :
    (fresh 7).cfg.Ok ∧ (Instr.feed 1#4 0x55#8).wellFormed (fresh 7).cfg = true := ⟨fresh_inv.cfg_ok, by decide⟩
theorem witness_InvariantHoldsAtReset : cfg8.Ok ∧ Config.default.Ok := ⟨ok_of_check (by decide), ok_of_check (by decide)⟩
theorem witness_EveryStepKeepsTheInvariant : ∃ s t : State, s.Inv ∧ step s = .next t ∧ t ≠ s :=
  ⟨present (holding [0x55, 0xAA] 20) 0x10000001#32, nextOf (step (present (holding [0x55, 0xAA] 20) 0x10000001#32)),
    inv_of_check (by decide), next_nextOf _ (by decide), by decide⟩
theorem witness_StaleBytesAreInvisible : ∃ s s' : State, s.Inv ∧ s'.Inv ∧ s.view = s'.view ∧ s ≠ s' :=
  ⟨stateOf (chanOf [0x55] 0 []) (chanOf [] 0 frameA) [entryOf 0 frameA 1] 7,
    stateOf { chanOf [0x55] 0 [] with buf := [0x55, 1, 2, 3, 4, 5, 6, 7] }
      { chanOf [] 0 frameA with oframe := [0x55, 0xAA, 0, 1, 9, 9, 9, 9] }
      [{ entryOf 0 frameA 1 with key := [0x55, 0xAA, 0, 1, 8, 8, 8, 8] }] 7,
    inv_of_check (by decide), inv_of_check (by decide), by decide, by decide⟩
theorem witness_OnlyResetWithdraws : ∃ (s t : State) (p : HostIn) (rest : List HostIn), s.queue = p :: rest ∧
    p.rst = false ∧ step s = .next t ∧ (s.chan 0#4).ovalid = true ∧ t.timeoutMs ≠ s.timeoutMs := by
  refine ⟨{ full frameC 3 with queue := [{ cmd := 0xB0000000#32, now := 3, wdata := 7, rst := false }] }, ?t,
    { cmd := 0xB0000000#32, now := 3, wdata := 7, rst := false }, [], rfl, rfl, ?h, ?o, ?n⟩
  case t => exact nextOf (step { full frameC 3 with
    queue := [{ cmd := 0xB0000000#32, now := 3, wdata := 7, rst := false }] })
  · exact next_nextOf _ (by decide)
  all_goals decide
theorem witness_OnlyFeedGrowsAndOnlyFeedOrTickEmpties :
    (∃ t, exec (.feed 0#4 0xAA#8) (holding [0x55] 20) = .next t ∧ ((holding [0x55] 20).chan 0#4).len < (t.chan 0#4).len) ∧
    (∃ t, exec (.tick 0#4) (holding [0x55] 111) = .next t ∧ ((holding [0x55] 111).chan 0#4).len ≠ 0 ∧
      (t.chan 0#4).len = 0) :=
  ⟨⟨nextOf (exec (.feed 0#4 0xAA#8) (holding [0x55] 20)), next_nextOf _ (by decide), by decide⟩,
    ⟨nextOf (exec (.tick 0#4) (holding [0x55] 111)), next_nextOf _ (by decide), by decide⟩⟩
theorem witness_OnlyEmissionWritesTheHoldingRegister :
    (∃ t, exec (.feed 0#4 0x01#8) (holding [0x55, 0xAA, 0x00] 20) = .next t ∧ t.ev.getLsbD 0 = true) ∧
    (∃ t, exec (.feed 0#4 0x02#8) (holding [0x55, 0xAA, 0x00] 20) = .next t ∧ t.ev.getLsbD 0 = false) :=
  ⟨⟨nextOf (exec (.feed 0#4 0x01#8) (holding [0x55, 0xAA, 0x00] 20)), next_nextOf _ (by decide), by decide⟩,
    ⟨nextOf (exec (.feed 0#4 0x02#8) (holding [0x55, 0xAA, 0x00] 20)), next_nextOf _ (by decide), by decide⟩⟩
theorem witness_EntriesLeaveOnlyByEviction :
    (∃ t, (oneEntry 8).Inv ∧ exec (.dedup 1#4) (oneEntry 8) = .next t ∧ t.dcount ≠ (oneEntry 8).dcount) ∧
    (∃ t, (full frameC 3).Inv ∧ exec (.dedup 0#4) (full frameC 3) = .next t ∧
      (full frameC 3).dcount = (full frameC 3).cfg.n ∧ ∃ p ∈ (full frameC 3).pairs, p ∉ t.pairs) :=
  ⟨⟨nextOf (exec (.dedup 1#4) (oneEntry 8)), oneEntry_inv, next_nextOf _ (by decide), by decide⟩,
    ⟨nextOf (exec (.dedup 0#4) (full frameC 3)), full_inv, next_nextOf _ (by decide), by decide⟩⟩
theorem witness_ComputeAndValidateAreTheByteSum : ((frameA).map BitVec.toNat).sum % 256 = 0 := by decide
theorem witness_ChecksumDetectsOneByteNotOrder :
    (0x00#8 : Byte) ≠ 0x01#8 ∧ validate ([0x55, 0xAA] ++ 0x00#8 :: [0x01#8]) = true ∧
    ([0x55, 0xAA, 0x00, 0x01] : List Byte).Perm [0xAA, 0x55, 0x00, 0x01] := by decide
theorem witness_TimeoutIsStrictAcrossTheWrap : cfg8.Ok ∧ (0x0010#32).toNat < 2 ^ cfg8.timeW ∧
    (0xFFFF#32).toNat < 2 ^ cfg8.timeW ∧ (chanOf [0x55] 0xFFFF []).tlast = 0xFFFF#32 :=
  ⟨fresh_inv.cfg_ok, by decide⟩
theorem witness_HuntingDropsAllButTheMarker :
    (fresh 7).cfg.Ok ∧ (1#4).toNat < (fresh 7).cfg.nch ∧ ((fresh 7).chan 1#4).len = 0 ∧ 0x00#8 ≠ (fresh 7).cfg.marker0 ∧
    0x55#8 = (fresh 7).cfg.marker0 ∧ (holding [0x55] 111).TimedOut 0#4 ∧ ¬ (holding [0x55] 110).TimedOut 0#4 :=
  ⟨fresh_inv.cfg_ok, by decide⟩
theorem witness_FeedAppendsAnyByte : ∃ (s : State) (b : Byte), s.Inv ∧ (0#4).toNat < s.cfg.nch ∧
    0 < (s.chan 0#4).len ∧ ¬ s.TimedOut 0#4 ∧ (s.chan 0#4).len = 6 ∧
    (let f := (s.chan 0#4).content ++ [b]
     ¬ (3 ≤ f.length ∧ (f.getD 2 0#8).toNat + 4 ≤ f.length) ∧ f.length ≠ s.cfg.cap) :=
  ⟨holding [0x55, 0xAA, 0xFF, 0, 0, 0] 110, 0x55#8, inv_of_check (by decide), by decide⟩
theorem witness_FeedEmitsACompleteValidFrame : ∃ (s : State) (b : Byte), s.Inv ∧ (0#4).toNat < s.cfg.nch ∧
    0 < (s.chan 0#4).len ∧ ¬ s.TimedOut 0#4 ∧
    (let f := (s.chan 0#4).content ++ [b]
     3 ≤ f.length ∧ (f.getD 2 0#8).toNat + 4 ≤ f.length ∧ sum8 f = 0 ∧ f.length = s.cfg.cap) :=
  ⟨holding [0x55, 0xAA, 0x04, 0, 0, 0, 0] 110, 0xFD#8, inv_of_check (by decide), by decide⟩
theorem witness_FeedEmitsACompleteValidFrame_only : ∃ t, (holding [0x55, 0xAA, 0x00] 110).Inv ∧
    exec (.feed 0#4 0x01#8) (holding [0x55, 0xAA, 0x00] 110) = .next t ∧ t.ev.getLsbD 0 = true :=
  ⟨nextOf (exec (.feed 0#4 0x01#8) (holding [0x55, 0xAA, 0x00] 110)), inv_of_check (by decide),
    next_nextOf _ (by decide), by decide⟩
theorem witness_FeedRejectsABadChecksum : ∃ (s : State) (b : Byte), s.Inv ∧ (0#4).toNat < s.cfg.nch ∧
    0 < (s.chan 0#4).len ∧ ¬ s.TimedOut 0#4 ∧
    (let f := (s.chan 0#4).content ++ [b]
     3 ≤ f.length ∧ (f.getD 2 0#8).toNat + 4 ≤ f.length ∧ sum8 f ≠ 0) :=
  ⟨holding [0x55, 0xAA, 0x00] 110, 0x02#8, inv_of_check (by decide), by decide⟩
theorem witness_FeedOverflowsAtCapacity : ∃ (s : State) (b : Byte), s.Inv ∧ (0#4).toNat < s.cfg.nch ∧
    0 < (s.chan 0#4).len ∧ ¬ s.TimedOut 0#4 ∧
    (let f := (s.chan 0#4).content ++ [b]
     ¬ (3 ≤ f.length ∧ (f.getD 2 0#8).toNat + 4 ≤ f.length) ∧ f.length = s.cfg.cap) :=
  ⟨holding [0x55, 0xAA, 0x05, 0, 0, 0, 0] 110, 0x00#8, inv_of_check (by decide), by decide⟩
theorem witness_EveryFeedStampsTheTime :
    (fresh 7).Inv ∧ (1#4).toNat < (fresh 7).cfg.nch ∧ ((fresh 7).chan 1#4).len = 0 := ⟨fresh_inv, by decide⟩
theorem witness_TickAppliesTheTimeout : (0#4).toNat < (holding [0x55] 111).cfg.nch ∧
    (holding [0x55] 111).TimedOut 0#4 ∧ ¬ (holding [0x55] 110).TimedOut 0#4 := by decide
theorem witness_TickThenFeedEqualsFeed :
    (0#4).toNat < (holding [0x55] 111).cfg.nch ∧ (holding [0x55] 111).TimedOut 0#4 := by decide
theorem witness_ChannelsAreIndependent : ∃ s s' : State, (0#4).toNat < s.cfg.nch ∧ s'.cfg = s.cfg ∧
    s'.timeoutMs = s.timeoutMs ∧ s'.time = s.time ∧ s'.chan 0#4 = s.chan 0#4 ∧ s' ≠ s :=
  ⟨holding [0x55] 20, stateOf (chanOf [0x55] 10 []) (chanOf [] 11 frameA) [entryOf 0 frameB 7] 20, by decide⟩
theorem witness_EmittedFramesAreWellFormed : ∃ t, (holding [0x55, 0xAA, 0x00] 20).Inv ∧
    exec (.feed 0#4 0x01#8) (holding [0x55, 0xAA, 0x00] 20) = .next t ∧ t.ev.getLsbD 0 = true :=
  ⟨nextOf (exec (.feed 0#4 0x01#8) (holding [0x55, 0xAA, 0x00] 20)), inv_of_check (by decide),
    next_nextOf _ (by decide), by decide⟩
theorem witness_FourFeedsBetweenEmissions : ∃ t, (holding [0x55, 0xAA, 0x00] 20).Inv ∧
    (0#4).toNat < (holding [0x55, 0xAA, 0x00] 20).cfg.nch ∧
    exec (.feed 0#4 0x01#8) (holding [0x55, 0xAA, 0x00] 20) = .next t ∧ t.ev.getLsbD 0 = true :=
  ⟨nextOf (exec (.feed 0#4 0x01#8) (holding [0x55, 0xAA, 0x00] 20)), inv_of_check (by decide), by decide,
    next_nextOf _ (by decide), by decide⟩

/-- The last byte of FA, then a NOP, a byte on the other channel and FA again. -/
def twoFrames : State :=
  { holding [0x55, 0xAA, 0x00] 20 with
    queue := [0x10000001#32, 0x10000055#32, 0x00000000#32, 0x11000055#32, 0x100000AA#32, 0x10000000#32, 0x10000001#32].map
      (fun w => { cmd := w, now := 20, wdata := 0, rst := false }) }

/-- The second emission is six presentations after the first, four of them FEEDs on channel 0: the bound is met exactly. -/
theorem witness_FourFeedsBetweenEmissions_run : ∃ s t u v : State, s.Inv ∧ Emission 0#4 s t ∧ run 5 t = .next u ∧
    Emission 0#4 u v ∧ (t.queue.take 6).countP (isFeedOf s.cfg 0#4) = 4 :=
  ⟨twoFrames, nextOf (step twoFrames), nextOf (run 5 (nextOf (step twoFrames))),
    nextOf (step (nextOf (run 5 (nextOf (step twoFrames))))), inv_of_check (by decide),
    ⟨by decide, next_nextOf _ (by decide), by decide⟩, next_nextOf _ (by decide),
    ⟨by decide, next_nextOf _ (by decide), by decide⟩, by decide⟩
theorem witness_FourFeedsBetweenEmissions_other : ∃ t, step (present (holding [0x55, 0xAA] 111) 0x20000000#32) = .next t ∧
    (present (holding [0x55, 0xAA] 111) 0x20000000#32).feedsNext 0#4 = false :=
  ⟨nextOf (step (present (holding [0x55, 0xAA] 111) 0x20000000#32)), next_nextOf _ (by decide), by decide⟩

/-- Bytes received at one time. -/
def burst (bs : List Byte) (now : Time) : List Arrival := bs.map (fun b => { byte := b, now := now, wdata := 0#32 })

/-- The last byte 100 ms after the others: exactly the timeout, which is no gap. -/
theorem witness_AFedFrameIsEmittedOnce : ∃ (s : State) (xs : List Arrival), s.Inv ∧ (0#4).toNat < s.cfg.nch ∧
    (s.chan 0#4).len = 0 ∧ s.queue = feedsOf 0#4 xs ++ [] ∧ ValidFrame s.cfg (xs.map Arrival.byte) ∧
    NoGap s.cfg s.timeoutMs xs := by
  refine ⟨{ fresh 7 with queue := feedsOf 0#4 (burst [0x55, 0xAA, 0x00] 0xFFFF ++ burst [0x01] 99) },
    burst [0x55, 0xAA, 0x00] 0xFFFF ++ burst [0x01] 99, inv_of_check (by decide), by decide, by decide, by decide,
    valid_of_check (by decide), ?_⟩
  simp only [burst, List.map_cons, List.map_nil, List.cons_append, List.nil_append, NoGap]
  decide
theorem witness_ACorruptFrameThenAValidOne : ∃ (s : State) (xs ys : List Arrival) (bs : List Byte) (x y : Byte),
    s.Inv ∧ (0#4).toNat < s.cfg.nch ∧ (s.chan 0#4).len = 0 ∧ s.queue = feedsOf 0#4 (xs ++ ys) ++ [] ∧
    ValidFrame s.cfg (bs ++ [y]) ∧ x ≠ y ∧ xs.map Arrival.byte = bs ++ [x] ∧ ValidFrame s.cfg (ys.map Arrival.byte) ∧
    NoGap s.cfg s.timeoutMs xs ∧ NoGap s.cfg s.timeoutMs ys := by
  refine ⟨{ fresh 7 with queue := feedsOf 0#4 (burst [0x55, 0xAA, 0x00, 0x02] 20 ++ burst frameB 9999) },
    burst [0x55, 0xAA, 0x00, 0x02] 20, burst frameB 9999, [0x55, 0xAA, 0x00], 0x02, 0x01, inv_of_check (by decide),
    by decide, by decide, by decide, valid_of_check (by decide), by decide, by decide, valid_of_check (by decide), ?_, ?_⟩
  · simp only [burst, List.map_cons, List.map_nil, NoGap]
    decide
  · simp only [burst, frameB, List.map_cons, List.map_nil, NoGap]
    decide
theorem witness_AnOversizeCandidateOverflows : ∃ (s : State) (xs : List Arrival), s.Inv ∧ (0#4).toNat < s.cfg.nch ∧
    (s.chan 0#4).len = 0 ∧ s.queue = feedsOf 0#4 xs ++ [] ∧ xs.length = s.cfg.cap ∧
    (xs.map Arrival.byte).getD 0 0#8 = s.cfg.marker0 ∧ s.cfg.lmax < ((xs.map Arrival.byte).getD 2 0#8).toNat ∧
    NoGap s.cfg s.timeoutMs xs := by
  refine ⟨{ fresh 7 with queue := feedsOf 0#4 (burst [0x55, 0xAA, 0x05, 0, 0, 0, 0, 0] 20) },
    burst [0x55, 0xAA, 0x05, 0, 0, 0, 0, 0] 20, inv_of_check (by decide), by decide, by decide, by decide, by decide,
    by decide, by decide, ?_⟩
  simp only [burst, List.map_cons, List.map_nil, NoGap]
  decide
theorem witness_DedupWithoutAFrameChangesNothing :
    (1#4).toNat < (fresh 7).cfg.nch ∧ ((fresh 7).chan 1#4).ovalid = false := by decide
theorem witness_DedupRefreshesADuplicateInPlace : ∃ (s : State) (e : Entry), s.Inv ∧ (0#4).toNat < s.cfg.nch ∧
    (s.chan 0#4).ovalid = true ∧ 1 < s.dcount ∧ s.dent[1]? = some e ∧ e.snd = 0#4 ∧ e.frame = (s.chan 0#4).frame :=
  ⟨full frameB 3, entryOf 0 frameB 2, inv_of_check (by decide), by decide⟩
theorem witness_DedupInsertsAtTheEnd : (oneEntry 8).Inv ∧ (1#4).toNat < (oneEntry 8).cfg.nch ∧
    ((oneEntry 8).chan 1#4).ovalid = true ∧ (1#4, ((oneEntry 8).chan 1#4).frame) ∉ (oneEntry 8).pairs ∧
    (oneEntry 8).dcount < (oneEntry 8).cfg.n := ⟨oneEntry_inv, by decide⟩
theorem witness_DedupEvictsEntryZero : (full frameC 3).Inv ∧ (0#4).toNat < (full frameC 3).cfg.nch ∧
    ((full frameC 3).chan 0#4).ovalid = true ∧ (0#4, ((full frameC 3).chan 0#4).frame) ∉ (full frameC 3).pairs ∧
    (full frameC 3).dcount = (full frameC 3).cfg.n := ⟨full_inv, by decide⟩
theorem witness_DedupRefinesTheFifoOfPairs : (full frameC 3).Inv ∧ (1#4).toNat < (full frameC 3).cfg.nch ∧
    ((full frameC 3).chan 1#4).ovalid = true := ⟨full_inv, by decide⟩
theorem witness_DedupTwiceIsADuplicate : ∃ t, (full frameC 3).Inv ∧ (0#4).toNat < (full frameC 3).cfg.nch ∧
    ((full frameC 3).chan 0#4).ovalid = true ∧ exec (.dedup 0#4) (full frameC 3) = .next t :=
  ⟨nextOf (exec (.dedup 0#4) (full frameC 3)), full_inv, by decide, by decide, next_nextOf _ (by decide)⟩
theorem witness_TheCacheKeepsTheNewestPairs : ∃ (s : State) (ps : List (ChanNo × List Byte)), s.Inv ∧ s.dcount = 0 ∧
    ps.Nodup ∧ ps.length = s.cfg.n + 1 ∧ ∀ p ∈ ps, p.1.toNat < s.cfg.nch ∧ ValidFrame s.cfg p.2 := by
  refine ⟨fresh 7, [(0, frameA), (1, frameA), (0, frameB)], fresh_inv, by decide, by decide, by decide, ?_⟩
  intro p hp
  simp only [List.mem_cons, List.not_mem_nil, or_false] at hp
  rcases hp with rfl | rfl | rfl <;> exact ⟨by decide, valid_of_check (by decide)⟩
/-- The last entry in use and the first unused one. -/
theorem witness_DmetaReadsAnEntry : (0#8).toNat < (oneEntry 8).dcount ∧
    (oneEntry 8).dent[(0#8).toNat]? = some (entryOf 0 frameA 7) ∧ (oneEntry 8).dcount ≤ (1#8).toNat := by decide
theorem witness_DtimeReadsATimestamp : (1#8).toNat < (full frameC 3).dcount ∧
    (full frameC 3).dent[(1#8).toNat]? = some (entryOf 0 frameB 2) ∧ (full frameC 3).dcount ≤ (2#8).toNat := by decide
theorem witness_DbyteReadsAKeyByte : (0#8).toNat < (oneEntry 8).dcount ∧
    (oneEntry 8).dent[(0#8).toNat]? = some (entryOf 0 frameA 7) ∧ (3#8).toNat < (entryOf 0 frameA 7).klen ∧
    (entryOf 0 frameA 7).key[(3#8).toNat]? = some 0x01#8 ∧ (entryOf 0 frameA 7).klen ≤ (4#8).toNat ∧
    (oneEntry 8).dcount ≤ (255#8).toNat := by decide
theorem witness_NopDoesNothing : (0x0FFFFFFF#32).extractLsb' 28 4 = 0#4 := by decide
theorem witness_FmetaReadsTheFrameStatus : (1#4).toNat < (fresh 7).cfg.nch := by decide
theorem witness_FbyteReadsAFrameByte : (0#4).toNat < (full frameC 3).cfg.nch ∧
    ((full frameC 3).chan 0#4).oframe[(5#8).toNat]? = some 0xB9#8 ∧ (5#8).toNat < ((full frameC 3).chan 0#4).olen ∧
    ((full frameC 3).chan 0#4).olen ≤ (6#8).toNat := by decide
theorem witness_BbyteReadsABufferByte : (0#4).toNat < (oneEntry 8).cfg.nch ∧
    ((oneEntry 8).chan 0#4).buf[(1#8).toNat]? = some 0xAA#8 ∧ (1#8).toNat < ((oneEntry 8).chan 0#4).len ∧
    ((oneEntry 8).chan 0#4).len ≤ (2#8).toNat := by decide
theorem witness_CsrrReadsTheMap : (1#4).toNat < (fresh 7).cfg.nch ∧ Csr.capr ≠ .chLen ∧ Csr.capr ≠ .chTlast ∧
    1#4 ≠ 0#4 ∧ (fresh 7).cfg.nch ≤ (2#4).toNat := by decide
theorem witness_CsrwWritesTheTimeoutOnly : (1#4 ≠ 0#4 ∨ Csr.timeoutMs ≠ .timeoutMs) ∧
    (0#4 ≠ 0#4 ∨ Csr.capr ≠ .timeoutMs) ∧ (0xB1000000#32).extractLsb' 28 4 = 0xB#4 := by decide
theorem witness_CsrwWritesTheTimeoutOnly_illegal : ∃ (s : State) (p : HostIn), s.queue = p :: [] ∧ p.rst = false ∧
    p.cmd.extractLsb' 28 4 = 0xB#4 ∧ p.cmd ≠ 0xB0000000#32 :=
  ⟨present (fresh 7) 0xB1000000#32, { cmd := 0xB1000000#32, now := 7, wdata := 0, rst := false }, by decide, rfl,
    by decide, by decide⟩
theorem witness_TheTimeoutWrittenIsRead : ∃ s : State, s.inp.wdata = 0xFFFFFFFF#32 :=
  ⟨{ fresh 7 with inp := { HostIn.quiet with wdata := 0xFFFFFFFF#32 } }, rfl⟩
theorem witness_ReadoutsChangeNoState : readOnly (.csrr 0#4 .capr) = true := by decide
theorem witness_UnusedInputsAreNotRead :
    exec .nop (fresh 7) = .next (fresh 7) ∧ readOnly .nop = true ∧ (∀ c r, Instr.nop ≠ .csrw c r) ∧
    ∃ t, exec (.csrw 0#4 .timeoutMs) (fresh 7) = .next t :=
  ⟨rfl, rfl, by simp, ⟨nextOf (exec (.csrw 0#4 .timeoutMs) (fresh 7)), rfl⟩⟩

end Sys2Proof.Tests
end

section
/-!
The state between commands (spec/10_state.md section 2 and R27, R31, R38): the register commands on a register they reach, what a
command can do to the cache, and the three statements that rest on them.
-/

namespace Sys2Proof.Machine

/-! ## The register commands -/

/-- CSRR of a register that its CH operand suits answers the register's value (R188). -/
theorem exec_csrr_of_readable {s : State} {c : ChanNo} {r : Csr} (h : csrReadable s.cfg c r = true) :
    exec (.csrr c r) s = .next (s.respond evNone (s.csr c r)) := by
  simp [exec, execCsrr, h]

/-- A global register is read with CH = 0, whatever the parameters (R30). -/
theorem csrReadable_of_global (cfg : Config) {r : Csr} (h : r.perChannel = false) : csrReadable cfg 0#4 r = true := by
  cases r with
  | chLen | chTlast => cases h
  | _ => rfl

theorem exec_csrw_timeoutMs (s : State) :
    exec (.csrw 0#4 .timeoutMs) s =
      .next (State.respond { s with timeoutMs := truncTime s.cfg s.inp.wdata } evNone 0#32) := rfl

/-! ## What a command does to the cache -/

/-- A command leaves DCOUNT and the pairs as they are; or is a DEDUP that inserts its pair, absent until then, into a cache that
is not full (R156); or is one that inserts it into a full cache for the oldest pair (R157). -/
theorem State.Inv.exec_pairs_cases {s t : State} (hs : s.Inv) {i : Instr} (h : exec i s = .next t) :
    (t.dcount = s.dcount ∧ t.pairs = s.pairs) ∨
    ∃ c, i = .dedup c ∧ (c, (s.chan c).frame) ∉ s.pairs ∧
      ((s.dcount < s.cfg.n ∧ t.dcount = s.dcount + 1 ∧ t.pairs = s.pairs ++ [(c, (s.chan c).frame)]) ∨
       (s.dcount = s.cfg.n ∧ t.dcount = s.dcount ∧ t.pairs = s.pairs.drop 1 ++ [(c, (s.chan c).frame)])) := by
  rcases exec_next_cases h with
    rfl | ⟨-, v, rfl⟩ | ⟨c, b, -, -, rfl⟩ | ⟨c, -, -, rfl⟩ | ⟨c, rfl, -, ⟨-, rfl⟩ | ⟨-, rfl⟩⟩ | ⟨-, rfl⟩
  case inr.inr.inr.inr.inl.inr =>
    rcases hs.seenOrRecord_cases c (s.chan c).frame with
      ⟨k, -, -, he, hp⟩ | ⟨hn, hlt, he, hp⟩ | ⟨hn, hfull, he, hp⟩
    · exact .inl ⟨by simp [he], hp⟩
    · exact .inr ⟨c, rfl, hn, .inl ⟨hlt, by simp [he], hp⟩⟩
    · exact .inr ⟨c, rfl, hn, .inr ⟨hfull, by simp [he], hp⟩⟩
  all_goals exact .inl ⟨rfl, rfl⟩

/-- An element of a list that is not in its tail is its head. -/
theorem head?_of_mem_of_not_mem_drop_one {α : Type} {l : List α} {a : α} (h : a ∈ l) (hd : a ∉ l.drop 1) :
    l.head? = some a := by
  cases l with
  | nil => cases h
  | cons b l => rw [(List.mem_cons.1 h).resolve_right hd, List.head?_cons]

end Sys2Proof.Machine

open Sys2Proof Sys2Proof.Machine

/-- Settles O21: no command changes DCOUNT or the pairs but a DEDUP that inserts its pair, at the end of a cache that is not full
or in a full one in place of the oldest pair. -/
theorem entriesLeaveOnlyByEviction : Obligations.EntriesLeaveOnlyByEviction := by
  intro i s t hs h
  rcases hs.exec_pairs_cases h with
    ⟨hd, hp⟩ | ⟨c, rfl, hn, ⟨hlt, hd, hp⟩ | ⟨hfull, hd, hp⟩⟩ <;> rw [hd, hp]
  · exact ⟨fun hne => absurd rfl hne, id, fun p hin hout => absurd hin hout⟩
  · exact ⟨fun _ => ⟨⟨c, rfl⟩, hlt, rfl⟩, fun he => absurd he hlt.ne,
      fun p hin hout => absurd (List.mem_append_left _ hin) hout⟩
  · refine ⟨fun hne => absurd rfl hne, id, fun p hin hout => ⟨⟨c, rfl⟩, hfull, ?_, _, by simp, hn⟩⟩
    exact head?_of_mem_of_not_mem_drop_one hin (fun hdrop => hout (List.mem_append_left _ hdrop))

/-- Settles O9: every channel after reset is `Channel.reset`, and the read-only global registers answer the parameters. -/
theorem resetStateHoldsTheResetValues : Obligations.ResetStateHoldsTheResetValues := by
  refine ⟨fun cfg => ⟨List.length_replicate, ?_, rfl, rfl, ?_, ?_, ?_, ?_, ?_⟩, rfl, rfl, rfl⟩
  · intro ch hch
    rw [List.eq_of_mem_replicate hch]
    exact ⟨rfl, rfl, rfl, rfl⟩
  all_goals exact exec_csrr_of_readable (csrReadable_of_global cfg rfl)

/-- Settles O56: CSRW stores the TIME_W low bits of wdata in TIMEOUT_MS, which CSRR answers as it stands. -/
theorem theTimeoutWrittenIsRead : Obligations.TheTimeoutWrittenIsRead := by
  refine ⟨?_, fun _ => rfl⟩
  rintro s v rfl
  exact ⟨_, _, exec_csrw_timeoutMs s, truncTime_toNat _ _, exec_csrr_of_readable (csrReadable_of_global s.cfg rfl),
    truncTime_toNat _ _⟩
end

section
/-!
The command word (spec/30_encoding.md R81 to R86): the decoder reads an instruction from exactly the words that encode it, the
rows of R83 on the fields of a word, the cases of R84 on an encoded instruction, and the two statements that rest on them.
-/

namespace Sys2Proof

/-! ## Words and instructions -/

/-- A word is the packing of four fields iff they are its fields and RSV is 0. -/
theorem packWord_eq_iff {op ch : BitVec 4} {idx data : BitVec 8} {w : Word} :
    packWord op ch idx data = w ↔
      opField w = op ∧ chField w = ch ∧ idxField w = idx ∧ rsvField w = 0#8 ∧ dataField w = data := by
  constructor
  · rintro rfl
    simp
  · rintro ⟨rfl, rfl, rfl, hrsv, rfl⟩
    exact packWord_fields w hrsv

theorem ifUnusedZero_eq_ok_iff {z : Bool} {i j : Instr} : ifUnusedZero z i = .ok j ↔ z = true ∧ i = j := by
  cases z <;> simp [ifUnusedZero]

theorem ifCsr_eq_ok_iff {n : BitVec 8} {f : Csr → Instr} {j : Instr} :
    ifCsr n f = .ok j ↔ ∃ r : Csr, r.num = n ∧ f r = j := by
  unfold ifCsr
  simp only [← Csr.ofNum_eq_some_iff]
  cases Csr.ofNum n <;> simp

/-- The fields of an encoded instruction spell it. -/
theorem decodeFields_encode (i : Instr) : decodeFields (encode i) = .ok i := by
  cases i <;> simp [decodeFields, encode, ifUnusedZero, ifCsr]

/-- What the fields of a word spell is encoded as that word. -/
theorem encode_of_decodeFields {w : Word} {i : Instr} (h : decodeFields w = .ok i) : encode i = w := by
  unfold decodeFields at h
  split_ifs at h with hreserved hrsv
  rw [ne_eq, not_not] at hrsv
  split at h
  case h_13 => cases h
  all_goals
    rename_i hn
    have hop := congrArg (BitVec.ofNat 4) hn
    rw [BitVec.ofNat_toNat, BitVec.setWidth_eq] at hop
  case h_11 | h_12 =>
    dsimp only at h
    split_ifs at h with hdata
    obtain ⟨r, hnum, rfl⟩ := ifCsr_eq_ok_iff.1 h
    exact packWord_eq_iff.2 ⟨hop, rfl, hnum.symm, hrsv, eq_of_beq hdata⟩
  all_goals
    obtain ⟨hzero, rfl⟩ := ifUnusedZero_eq_ok_iff.1 h
    simp only [Bool.and_eq_true, beq_iff_eq] at hzero
    exact packWord_eq_iff.2 (by simp [hop, hzero, hrsv])

theorem decodeFields_eq_ok_iff {w : Word} {i : Instr} : decodeFields w = .ok i ↔ encode i = w :=
  ⟨encode_of_decodeFields, fun h => h ▸ decodeFields_encode i⟩

/-- A word decodes to an instruction iff it is its encoding and the CH and CSR conditions `P` hold. -/
theorem decode_eq_ok_iff_encode {cfg : Config} {w : Word} {i : Instr} {P : Prop} (h : i.wellFormed cfg = true ↔ P) :
    decode cfg w = .ok i ↔ encode i = w ∧ P := by
  rw [decode_eq_ok_iff, decodeFields_eq_ok_iff, h]

/-- For a command whose one condition is that its channel exists. -/
theorem decode_eq_ok_iff_encode_of_chan {cfg : Config} {w : Word} {i : Instr} {c : ChanNo}
    (h : i.wellFormed cfg = decide (c.toNat < cfg.nch)) : decode cfg w = .ok i ↔ encode i = w ∧ c.toNat < cfg.nch :=
  decode_eq_ok_iff_encode (by rw [h, decide_eq_true_iff])

/-- A word decodes to an instruction that no parameter makes ill-formed iff it is its encoding. -/
theorem decode_eq_ok_iff_encode_of_wellFormed {cfg : Config} {w : Word} {i : Instr} (h : i.wellFormed cfg = true) :
    decode cfg w = .ok i ↔ encode i = w :=
  (decode_eq_ok_iff_encode (iff_true_intro h)).trans (and_iff_left trivial)

/-! ## The rows of R83, by the fields that R82 lists for the command -/

/-- The mask of a row: every bit but those of the fields the command uses. -/
def rowMask (useCh useIdx useData : Bool) : Word :=
  0xF#4 ++ (bif useCh then 0x0#4 else 0xF#4) ++ (bif useIdx then 0x00#8 else 0xFF#8) ++ 0xFF#8 ++
    (bif useData then 0x00#8 else 0xFF#8)

/-- A word agrees with a row iff it has the row's opcode and 0 in RSV and in the fields the command does not use. -/
theorem and_rowMask_eq_iff (useCh useIdx useData : Bool) (op : BitVec 4) (w : Word) :
    w &&& rowMask useCh useIdx useData = packWord op 0#4 0#8 0#8 ↔
      opField w = op ∧ (useCh = false → chField w = 0#4) ∧ (useIdx = false → idxField w = 0#8) ∧
        rsvField w = 0#8 ∧ (useData = false → dataField w = 0#8) := by
  unfold rowMask packWord
  rw [mask_fields]
  cases useCh <;> cases useIdx <;> cases useData <;> simp

section
variable (op : BitVec 4) {c : ChanNo} {i k : BitVec 8} {w : Word} {P : Prop}

/-- FEED, FBYTE and BBYTE; `P` is the condition on CH. -/
theorem row_ch_data : (packWord op c 0#8 k = w ∧ P) ↔
    w &&& rowMask true false true = packWord op 0#4 0#8 0#8 ∧ P ∧ c = chField w ∧ k = dataField w := by
  rw [packWord_eq_iff, and_rowMask_eq_iff]
  grind

/-- TICK, DEDUP and FMETA; `P` is the condition on CH. -/
theorem row_ch : (packWord op c 0#8 0#8 = w ∧ P) ↔
    w &&& rowMask true false false = packWord op 0#4 0#8 0#8 ∧ P ∧ c = chField w := by
  rw [packWord_eq_iff, and_rowMask_eq_iff]
  grind

/-- DMETA and DTIME. -/
theorem row_idx : packWord op 0#4 i 0#8 = w ↔
    w &&& rowMask false true false = packWord op 0#4 0#8 0#8 ∧ i = idxField w := by
  rw [packWord_eq_iff, and_rowMask_eq_iff]
  grind

/-- DBYTE. -/
theorem row_idx_data : packWord op 0#4 i k = w ↔
    w &&& rowMask false true true = packWord op 0#4 0#8 0#8 ∧ i = idxField w ∧ k = dataField w := by
  rw [packWord_eq_iff, and_rowMask_eq_iff]
  grind

/-- CSRR and CSRW; `P` is the condition on CH and the register. -/
theorem row_ch_idx : (packWord op c i 0#8 = w ∧ P) ↔
    w &&& rowMask true true false = packWord op 0#4 0#8 0#8 ∧ c = chField w ∧ i = idxField w ∧ P := by
  rw [packWord_eq_iff, and_rowMask_eq_iff]
  grind

end

/-- The last column of R83 for CSRR. -/
theorem wellFormed_csrr_iff (cfg : Config) (c : ChanNo) (r : Csr) : (Instr.csrr c r).wellFormed cfg = true ↔
    if r = .chLen ∨ r = .chTlast then c.toNat < cfg.nch else c = 0#4 := by
  cases r <;> simp [Instr.wellFormed, Csr.perChannel]

/-- The last column of R83 for CSRW. -/
theorem wellFormed_csrw_iff (cfg : Config) (c : ChanNo) (r : Csr) :
    (Instr.csrw c r).wellFormed cfg = true ↔ r = .timeoutMs ∧ c = 0#4 := by
  simp [Instr.wellFormed]

end Sys2Proof

open Sys2Proof Sys2Proof.Machine

/-- Settles O3: a word decodes to an instruction iff it is its encoding and the row's condition holds, and it is the encoding iff
it agrees with the row and its used fields are the operands. -/
theorem commandWordsMatchTheTable : Obligations.CommandWordsMatchTheTable := by
  intro cfg w c i k r
  refine ⟨?nop, ?feed, ?tick, ?dedup, ?dmeta, ?dtime, ?dbyte, ?fmeta, ?fbyte, ?bbyte, ?csrr, ?csrw⟩
  case nop =>
    rw [decode_eq_ok_iff_encode_of_wellFormed rfl, show w &&& 0xFFFFFFFF#32 = w from BitVec.and_allOnes]
    exact eq_comm
  case feed => exact (decode_eq_ok_iff_encode_of_chan rfl).trans (row_ch_data 0x1#4)
  case tick => exact (decode_eq_ok_iff_encode_of_chan rfl).trans (row_ch 0x2#4)
  case dedup => exact (decode_eq_ok_iff_encode_of_chan rfl).trans (row_ch 0x3#4)
  case dmeta => exact (decode_eq_ok_iff_encode_of_wellFormed rfl).trans (row_idx 0x4#4)
  case dtime => exact (decode_eq_ok_iff_encode_of_wellFormed rfl).trans (row_idx 0x5#4)
  case dbyte => exact (decode_eq_ok_iff_encode_of_wellFormed rfl).trans (row_idx_data 0x6#4)
  case fmeta => exact (decode_eq_ok_iff_encode_of_chan rfl).trans (row_ch 0x7#4)
  case fbyte => exact (decode_eq_ok_iff_encode_of_chan rfl).trans (row_ch_data 0x8#4)
  case bbyte => exact (decode_eq_ok_iff_encode_of_chan rfl).trans (row_ch_data 0x9#4)
  case csrr => exact (decode_eq_ok_iff_encode (wellFormed_csrr_iff cfg c r)).trans (row_ch_idx 0xA#4)
  case csrw => exact (decode_eq_ok_iff_encode (wellFormed_csrw_iff cfg c r)).trans (row_ch_idx 0xB#4)

namespace Sys2Proof.Machine

/-! ## The cases of R84, on the fields -/

/-- The bits that R84 is written on are the fields of R81. -/
theorem extractLsb'_eq_fields (w : Word) :
    w.extractLsb' 28 4 = opField w ∧ w.extractLsb' 24 4 = chField w ∧ w.extractLsb' 16 8 = idxField w ∧
      w.extractLsb' 8 8 = rsvField w ∧ w.extractLsb' 0 8 = dataField w :=
  ⟨rfl, rfl, rfl, rfl, rfl⟩

/-- R84 compares fields with 0 as numbers, the decoder as bit vectors. -/
@[simp] theorem toNat_eq_zero_iff {n : Nat} (x : BitVec n) : x.toNat = 0 ↔ x = 0#n := by
  rw [← BitVec.toNat_inj, BitVec.toNat_zero]

theorem eq_false_of_ifUnusedZero_eq_error {z : Bool} {i : Instr} {e : IllegalWord}
    (h : ifUnusedZero z i = .error e) : z = false := by
  cases z with
  | false => rfl
  | true => cases h

theorem ofNum_eq_none_of_ifCsr_eq_error {n : BitVec 8} {f : Csr → Instr} {e : IllegalWord}
    (h : ifCsr n f = .error e) : Csr.ofNum n = none := by
  unfold ifCsr at h
  split at h
  · cases h
  · assumption

/-- A number that names no register is not in the map of R30. -/
theorem toNat_notMem_of_ofNum_eq_none {n : BitVec 8} (h : Csr.ofNum n = none) :
    n.toNat ∉ [0x00, 0x01, 0x02, 0x03, 0x04, 0x05, 0x06, 0x10, 0x11] := by
  unfold Csr.ofNum at h
  split at h
  case h_10 => simp_all
  all_goals cases h

/-- A word that spells no instruction falls under (a), (b), (c) or the first part of (e). -/
theorem isIllegal_of_decodeFields_error {w : Word} {e : IllegalWord} (h : decodeFields w = .error e) (cfg : Config) :
    IsIllegal cfg w := by
  unfold decodeFields at h
  split_ifs at h with hreserved hrsv
  · exact .inl hreserved
  · exact .inr (.inl hrsv)
  · split at h
    case h_13 => exact absurd (by grind) hreserved
    case h_11 | h_12 =>
      rename_i hop
      dsimp only at h
      split_ifs at h with hdata
      · have hcsr := toNat_notMem_of_ofNum_eq_none (ofNum_eq_none_of_ifCsr_eq_error h)
        exact .inr (.inr (.inr (.inr (.inl ⟨by simp [extractLsb'_eq_fields, hop], hcsr⟩))))
      · exact .inr (.inr (.inl (by simpa [IllegalUnused, extractLsb'_eq_fields, hop] using hdata)))
    all_goals
      rename_i hop
      have hzero := eq_false_of_ifUnusedZero_eq_error h
      simp only [Bool.and_eq_false_iff, beq_eq_false_iff_ne, or_assoc] at hzero
      exact .inr (.inr (.inl (by simpa [IllegalUnused, extractLsb'_eq_fields, hop] using hzero)))

/-- The word of an instruction falls under R84 iff the instruction is ill-formed: by (d) or by the second part of (e). -/
theorem isIllegal_encode_iff (cfg : Config) (i : Instr) : IsIllegal cfg (encode i) ↔ i.wellFormed cfg = false := by
  simp only [IsIllegal, IllegalOpcode, IllegalReserved, IllegalUnused, IllegalChannel, IllegalCsr,
    extractLsb'_eq_fields]
  cases i with
  | csrr c r => cases r <;> simp [encode, Csr.num, Instr.wellFormed, Csr.perChannel]
  | csrw c r => cases r <;> simp [encode, Csr.num, Instr.wellFormed]
  | _ => simp [encode, Instr.wellFormed]

theorem legal_iff_not_isIllegal (cfg : Config) (w : Word) : legal cfg w = true ↔ ¬ IsIllegal cfg w := by
  rw [legal_iff]
  cases h : decodeFields w with
  | error e => simp [decode_eq_ok_iff, h, isIllegal_of_decodeFields_error h cfg]
  | ok i =>
    rw [← encode_of_decodeFields h, isIllegal_encode_iff]
    simp [decode_eq_ok_iff, decodeFields_encode]

/-- A step on a word that falls under R84 is the illegal response (R214). -/
theorem step_of_isIllegal {s : State} {p : HostIn} {rest : List HostIn} (hq : s.queue = p :: rest) (hr : p.rst = false)
    (h : IsIllegal s.cfg p.cmd) : step s = .next (State.illegal { s with inp := p, queue := rest }) := by
  have hno : ¬ ∃ i, decode s.cfg p.cmd = .ok i := by
    rw [← legal_iff, legal_iff_not_isIllegal, not_not]
    exact h
  rw [step, State.accept_cons hq]
  cases hd : decode s.cfg p.cmd with
  | ok i => exact absurd ⟨i, hd⟩ hno
  | error e => simp [hr, hd]

end Sys2Proof.Machine

/-- Settles O4: a word decodes iff it encodes a well-formed instruction, which is when no case of R84 applies, and a step on
any other word is the illegal response. -/
theorem illegalWordsChangeNothing : Obligations.IllegalWordsChangeNothing := by
  refine ⟨fun cfg w => ?_, fun s p rest hq hr h => step_of_isIllegal hq hr h, fun cfg => ?_⟩
  · rw [← Bool.not_eq_true, legal_iff_not_isIllegal, not_not]
  · exact (decode_eq_ok_iff_encode_of_wellFormed rfl).2 rfl

end

section
/-!
The checksum unit (spec/40_checksum.md R100, R101): what `compute` and `validate` answer, over the reduced sum.
-/

namespace Sys2Proof.Machine

theorem sum8_eq_sum_mod (bs : List Byte) : sum8 bs = (bs.map BitVec.toNat).sum % 256 := rfl

/-- The outer reduction of R100 keeps the value in a byte, so none is lost in the conversion. -/
@[simp] theorem toNat_compute (bs : List Byte) : (compute bs).toNat = (256 - sum8 bs) % 256 := by
  rw [compute, BitVec.toNat_ofNat]
  exact Nat.mod_mod _ 256

@[simp] theorem validate_eq_true_iff (bs : List Byte) : validate bs = true ↔ sum8 bs = 0 := beq_iff_eq

/-- The corner case of R100: 256 − 0 is reduced to 0. -/
theorem compute_eq_zero_of_sum8_eq_zero {bs : List Byte} (h : sum8 bs = 0) : compute bs = 0#8 := by
  apply BitVec.eq_of_toNat_eq
  rw [toNat_compute, h]
  rfl

end Sys2Proof.Machine

open Sys2Proof.Machine

/-- Settles O22: the three laws are those of `compute` and `validate` over `sum8`, and the examples are evaluated. -/
theorem computeAndValidateAreTheByteSum : Obligations.ComputeAndValidateAreTheByteSum := by
  refine ⟨fun bs => ?_, by decide⟩
  rw [← sum8_eq_sum_mod]
  exact ⟨toNat_compute bs, validate_eq_true_iff bs, compute_eq_zero_of_sum8_eq_zero⟩

end

section
/-!
The frame assembler (spec/41_assembler.md R120 to R128, R138): what FEED does to a channel that is empty after the timeout test and
to one that holds bytes, which FEED raises EV_FRAME, what of the state FEED and TICK read, and the six statements that rest on them.
-/

namespace Sys2Proof.Machine

/-! ## Events -/

theorem getLsbD_raise (ev x : Ev) (i : Nat) : (raise ev x).getLsbD i = (ev.getLsbD i || x.getLsbD i) :=
  BitVec.getLsbD_or

/-- The timeout test raises no EV_FRAME. -/
theorem Channel.timeoutTest_not_frame (cfg : Config) (timeoutMs now : Time) (ch : Channel) :
    (ch.timeoutTest cfg timeoutMs now).2.getLsbD 0 = false := by
  rcases ch.timeoutTest_cases cfg timeoutMs now with ⟨-, he⟩ | ⟨-, he⟩ <;> rw [he]
  · simp [evTimeout]
  · simp [evNone]

/-! ## Settling after the append -/

section
variable {cfg : Config} {ch : Channel} {ev : Ev}

theorem Channel.settle_of_valid (hc : ch.complete = true) (hs : sum8 ch.content = 0) :
    ch.settle cfg ev = ((ch.emit ch.content).discard, raise ev evFrame) := by
  rw [Channel.settle, if_pos hc, if_pos (validate_eq_true_iff _ |>.2 hs)]

theorem Channel.settle_of_bad_sum (hc : ch.complete = true) (hs : sum8 ch.content ≠ 0) :
    ch.settle cfg ev = (ch.discard, raise ev evCsumErr) := by
  rw [Channel.settle, if_pos hc, if_neg (mt (validate_eq_true_iff _).1 hs)]

theorem Channel.settle_of_full (hc : ¬ ch.complete = true) (hl : ch.len = cfg.cap) :
    ch.settle cfg ev = (ch.discard, raise ev evOverflow) := by
  rw [Channel.settle, if_neg hc, if_pos hl]

theorem Channel.settle_of_in_progress (hc : ¬ ch.complete = true) (hl : ch.len ≠ cfg.cap) :
    ch.settle cfg ev = (ch, ev) := by
  rw [Channel.settle, if_neg hc, if_neg hl]

/-- Settling raises EV_FRAME exactly for a complete candidate whose bytes sum to 0 (R126). -/
theorem Channel.settle_frame_iff (he : ev.getLsbD 0 = false) :
    (ch.settle cfg ev).2.getLsbD 0 = true ↔ ch.complete = true ∧ sum8 ch.content = 0 := by
  rcases ch.settle_cases cfg ev with ⟨hc, hs, h⟩ | ⟨hc, hs, h⟩ | ⟨hc, -, h⟩ | ⟨hc, -, h⟩ <;> rw [h]
  · exact iff_of_true (by rw [getLsbD_raise]; exact Bool.or_true _) ⟨hc, hs⟩
  · exact iff_of_false (by rw [getLsbD_raise, he]; decide) (fun hf => hs hf.2)
  · exact iff_of_false (by rw [getLsbD_raise, he]; decide) (by simp [hc])
  · exact iff_of_false (by rw [he]; decide) (by simp [hc])

theorem Channel.settle_tlast : (ch.settle cfg ev).1.tlast = ch.tlast := by
  rcases ch.settle_cases cfg ev with ⟨-, -, h⟩ | ⟨-, -, h⟩ | ⟨-, -, h⟩ | ⟨-, -, h⟩ <;> rw [h] <;> rfl

end

/-- An emission puts its frame in the holding register. -/
@[simp] theorem Channel.frame_emit (ch : Channel) (f : List Byte) : (ch.emit f).discard.frame = f := by
  simp [Channel.frame]

/-! ## FEED on a channel -/

section
variable {cfg : Config} {timeoutMs now : Time} {b : Byte} {ch : Channel}

/-- A byte other than MARKER0 on a channel that is empty after the timeout test is dropped (R123). -/
theorem Channel.feed_of_dropped (h : (ch.stamped cfg timeoutMs now).len = 0) (hb : b ≠ cfg.marker0) :
    ch.feed cfg timeoutMs now b =
      (ch.stamped cfg timeoutMs now, raise (ch.timeoutTest cfg timeoutMs now).2 evDrop) := if_pos ⟨h, hb⟩

/-- Any other byte is appended (R124, R125). -/
theorem Channel.feed_of_appended (h : (ch.stamped cfg timeoutMs now).len ≠ 0 ∨ b = cfg.marker0) :
    ch.feed cfg timeoutMs now b =
      ((ch.stamped cfg timeoutMs now).append b).settle cfg (ch.timeoutTest cfg timeoutMs now).2 :=
  if_neg fun hd => h.elim (· hd.1) hd.2

/-- One byte neither completes a frame nor fills the buffer, so MARKER0 on an empty channel starts a frame (R123). -/
theorem Channel.feed_of_marker (hok : cfg.Ok) (h : (ch.stamped cfg timeoutMs now).len = 0) (hb : b = cfg.marker0) :
    ch.feed cfg timeoutMs now b =
      ((ch.stamped cfg timeoutMs now).append b, (ch.timeoutTest cfg timeoutMs now).2) := by
  have hcap := hok.cap_ge
  rw [Channel.feed_of_appended (.inr hb)]
  apply Channel.settle_of_in_progress
  · rw [Channel.complete_iff_buf, Channel.append_len]
    omega
  · rw [Channel.append_len]
    omega

/-- FEED stamps the time, whatever becomes of the byte (R122). -/
theorem Channel.feed_tlast (cfg : Config) (timeoutMs now : Time) (b : Byte) (ch : Channel) :
    (ch.feed cfg timeoutMs now b).1.tlast = now := by
  rcases ch.feed_cases cfg timeoutMs now b with ⟨-, -, he⟩ | ⟨-, he⟩ <;> rw [he]
  · rfl
  · exact Channel.settle_tlast

/-- FEED overwrites TLAST, and the timeout test of an empty channel does not read it (R122). -/
theorem Channel.feed_tlast_irrelevant (h : ch.len = 0) (x : Time) :
    Channel.feed cfg timeoutMs now b { ch with tlast := x } = ch.feed cfg timeoutMs now b := by
  have hx : Channel.timedOut cfg timeoutMs now { ch with tlast := x } = false := Channel.timedOut_of_empty h
  simp only [Channel.feed, Channel.timeoutTest_of_not hx, Channel.timeoutTest_of_not (Channel.timedOut_of_empty h)]

/-- A channel that holds bytes after the timeout test did not time out. -/
theorem Channel.not_timedOut_of_stamped (h : (ch.stamped cfg timeoutMs now).len ≠ 0) :
    ch.timedOut cfg timeoutMs now = false := by
  rw [← Bool.not_eq_true]
  intro ht
  exact h (by rw [Channel.stamped_of_timedOut ht])

/-- The channel after FEED's append, when no timeout discarded the frame in progress. -/
def Channel.fed (ch : Channel) (now : Time) (b : Byte) : Channel := Channel.append { ch with tlast := now } b

/-- FEED on a channel that holds bytes appends the byte, whichever it is, and settles (R124, R125). -/
theorem Channel.feed_of_holding (hl : 0 < ch.len) (ht : ch.timedOut cfg timeoutMs now = false) :
    ch.feed cfg timeoutMs now b = (ch.fed now b).settle cfg evNone := by
  have hst := Channel.stamped_of_not ht
  rw [Channel.feed_of_appended (.inl (by rw [hst]; exact hl.ne')), hst, Channel.timeoutTest_of_not ht]
  rfl

/-- A FEED that raises EV_FRAME appended to a frame in progress and completed it with a byte sum of 0 (R126): one byte alone
completes nothing. -/
theorem Channel.fed_of_feed_frame (h : (ch.feed cfg timeoutMs now b).2.getLsbD 0 = true) :
    0 < ch.len ∧ ch.timedOut cfg timeoutMs now = false ∧
      (ch.fed now b).complete = true ∧ sum8 (ch.fed now b).content = 0 := by
  have hev := ch.timeoutTest_not_frame cfg timeoutMs now
  rcases ch.feed_cases cfg timeoutMs now b with ⟨-, -, he⟩ | ⟨-, he⟩ <;> rw [he] at h
  · rw [getLsbD_raise, hev] at h
    cases h
  · rw [Channel.settle_frame_iff hev] at h
    obtain ⟨hc, hs⟩ := h
    obtain ⟨h3, -⟩ := (Channel.complete_iff_buf _).1 hc
    have h2 : 2 ≤ (ch.stamped cfg timeoutMs now).len := Nat.le_of_succ_le_succ h3
    have ht := Channel.not_timedOut_of_stamped (Nat.ne_zero_of_lt h2)
    rw [Channel.stamped_of_not ht] at h2 hc hs
    exact ⟨Nat.zero_lt_of_lt h2, ht, hc, hs⟩

end

/-! ## The candidate -/

section
variable {cfg : Config} {ch : Channel} (h : ch.Inv cfg) (now : Time) (b : Byte)
include h

theorem Channel.Inv.fed_content : (ch.fed now b).content = ch.content ++ [b] :=
  Channel.content_append { ch with tlast := now } b (by rw [h.buf_length]; exact h.len_lt)

theorem Channel.Inv.fed_len : (ch.fed now b).len = (ch.content ++ [b]).length := by
  rw [List.length_append, ch.content_length (by rw [h.buf_length]; exact h.len_lt.le)]
  rfl

/-- The completeness test on the frame in progress with the byte appended (R126). -/
theorem Channel.Inv.fed_complete_iff : (ch.fed now b).complete = true ↔
    3 ≤ (ch.content ++ [b]).length ∧ ((ch.content ++ [b]).getD 2 0#8).toNat + 4 ≤ (ch.content ++ [b]).length := by
  have hle : (ch.fed now b).len ≤ (ch.fed now b).buf.length := by
    simp only [Channel.fed, Channel.append_len, Channel.append_buf, List.length_set, h.buf_length]
    exact h.len_lt
  rw [Channel.complete_iff _ hle, h.fed_content]

end

/-! ## The commands on a channel that exists -/

section
variable {s : State} {c : ChanNo}

/-- FEED and TICK answer with one channel replaced, an event vector and rdata 0. -/
def State.answer (s : State) (c : ChanNo) (r : Channel × Ev) : State :=
  { s with chans := s.chans.set c.toNat r.1, ev := r.2, rdata := 0#32 }

theorem exec_feed (hc : c.toNat < s.cfg.nch) (b : Byte) :
    exec (.feed c b) s = .next (s.answer c ((s.chan c).feed s.cfg s.timeoutMs s.time b)) := execFeed_of_chan hc b

theorem exec_tick (hc : c.toNat < s.cfg.nch) :
    exec (.tick c) s = .next (s.answer c ((s.chan c).timeoutTest s.cfg s.timeoutMs s.time)) := execTick_of_chan hc

/-- What FEED and TICK do to a channel is one function of the parameters, TIMEOUT_MS, the time and the channel (R138). -/
theorem exec_answer {i : Instr} (hi : i = .tick c ∨ ∃ b, i = .feed c b) :
    ∃ f : Config → Time → Time → Channel → Channel × Ev, ∀ s : State, c.toNat < s.cfg.nch →
      exec i s = .next (s.answer c (f s.cfg s.timeoutMs s.time (s.chan c))) := by
  rcases hi with rfl | ⟨b, rfl⟩
  · exact ⟨Channel.timeoutTest, fun s hc => exec_tick hc⟩
  · exact ⟨fun cfg timeoutMs now ch => ch.feed cfg timeoutMs now b, fun s hc => exec_feed hc b⟩

theorem State.answer_chan (h : c.toNat < s.chans.length) (r : Channel × Ev) : (s.answer c r).chan c = r.1 :=
  s.chan_setChan_same c r.1 h

/-- An answer that keeps the channel changes nothing but the response. -/
theorem State.answer_self (s : State) (c : ChanNo) (e : Ev) :
    s.answer c (s.chan c, e) = { s with ev := e, rdata := 0#32 } :=
  congrArg (State.respond · e 0#32) (s.setChan_self c)

/-- The answer replaces the channel, so it does not depend on what stood there. -/
theorem State.answer_setChan (s : State) (c : ChanNo) (ch : Channel) (r : Channel × Ev) :
    (s.setChan c ch).answer c r = s.answer c r := by
  simp [State.answer, State.setChan]

/-- TICK on an empty channel does nothing (R135). -/
theorem exec_tick_of_empty (hc : c.toNat < s.cfg.nch) (hl : (s.chan c).len = 0) :
    exec (.tick c) s = .next { s with ev := evNone, rdata := 0#32 } := by
  rw [exec_tick hc, Channel.timeoutTest_of_not (Channel.timedOut_of_empty hl), State.answer_self]

/-- FEED on an empty channel does not read TLAST (R122). -/
theorem exec_feed_setChan_tlast (hc : c.toNat < s.cfg.nch) (hlt : c.toNat < s.chans.length) (hl : (s.chan c).len = 0)
    (b : Byte) (x : Time) :
    exec (.feed c b) (s.setChan c { s.chan c with tlast := x }) = exec (.feed c b) s := by
  rw [exec_feed (s := s.setChan c _) hc, exec_feed hc, s.chan_setChan_same c _ hlt, State.answer_setChan,
    Channel.feed_tlast_irrelevant hl]
  rfl

/-- FEED on a channel that holds bytes, no timeout having passed. -/
theorem exec_feed_of_holding (hc : c.toNat < s.cfg.nch) (hl : 0 < (s.chan c).len) (ht : ¬ s.TimedOut c) (b : Byte) :
    exec (.feed c b) s = .next (s.answer c (((s.chan c).fed s.time b).settle s.cfg evNone)) := by
  rw [exec_feed hc, Channel.feed_of_holding hl ((s.timedOut_false_iff c).2 ht)]

/-- FEED on a channel that the timeout test leaves empty, as `ch` with the event vector `e` (R123). -/
theorem exec_feed_of_hunting (hok : s.cfg.Ok) (hc : c.toNat < s.cfg.nch) (b : Byte) {ch : Channel} {e : Ev}
    (hst : (s.chan c).stamped s.cfg s.timeoutMs s.time = ch)
    (hev : ((s.chan c).timeoutTest s.cfg s.timeoutMs s.time).2 = e) (h0 : ch.len = 0) :
    (b ≠ s.cfg.marker0 → exec (.feed c b) s = .next (s.answer c (ch, raise e evDrop))) ∧
    (b = s.cfg.marker0 →
      exec (.feed c b) s = .next (s.answer c ({ ch with buf := ch.buf.set 0 b, len := 1 }, e))) := by
  subst hst hev
  constructor <;> intro hb <;> rw [exec_feed hc]
  · rw [Channel.feed_of_dropped h0 hb]
  · rw [Channel.feed_of_marker hok h0 hb, Channel.append, h0]

end

end Sys2Proof.Machine

open Sys2Proof Sys2Proof.Machine

/-- Settles O26: both halves are FEED on a channel that the timeout test leaves empty, as it was or by discarding its frame. -/
theorem huntingDropsAllButTheMarker : Obligations.HuntingDropsAllButTheMarker := by
  intro s c b hok hc
  refine ⟨fun hl => ?_, fun hto => ?_⟩
  · have ht : (s.chan c).timedOut s.cfg s.timeoutMs s.time = false := Channel.timedOut_of_empty hl
    exact exec_feed_of_hunting hok hc b (e := evNone) (Channel.stamped_of_not ht)
      (by rw [Channel.timeoutTest_of_not ht]) hl
  · have ht := (s.timedOut_iff c).2 hto
    exact exec_feed_of_hunting hok hc b (e := evTimeout) (Channel.stamped_of_timedOut ht)
      (by rw [Channel.timeoutTest_of_timedOut ht]) rfl

/-- Settles O28: the appended channel settles by emission, and a FEED that raises EV_FRAME is of this kind. -/
theorem feedEmitsACompleteValidFrame : Obligations.FeedEmitsACompleteValidFrame := by
  constructor
  · intro s c b hs hc hl ht f h3 hle hsum
    have hi := hs.chan_inv hc
    have hcomplete := (hi.fed_complete_iff s.time b).2 ⟨h3, hle⟩
    have hcontent := hi.fed_content s.time b
    have hex := exec_feed_of_holding hc hl ht b
    rw [Channel.settle_of_valid hcomplete (by rw [hcontent]; exact hsum), hcontent] at hex
    refine ⟨_, hex, ?_⟩
    rw [State.answer_chan (hs.chan_lt hc)]
    exact ⟨rfl, rfl, Channel.frame_emit _ _, rfl, rfl, rfl, rfl, rfl⟩
  · intro s t c b hs h hev f
    by_cases hc : c.toNat < s.cfg.nch
    · rw [exec_feed hc] at h
      cases h
      have hi := hs.chan_inv hc
      obtain ⟨hl, ht, hcomplete, hsum⟩ := Channel.fed_of_feed_frame hev
      obtain ⟨h3, hle⟩ := (hi.fed_complete_iff s.time b).1 hcomplete
      rw [hi.fed_content] at hsum
      exact ⟨hl, (s.timedOut_false_iff c).1 ht, h3, hle, hsum⟩
    · simp only [exec, execFeed, hasChan_false hc] at h
      cases h
      exact absurd hev (by decide : ¬ evIllegal.getLsbD 0 = true)

/-- Settles O29: the appended channel settles by discarding a complete candidate. -/
theorem feedRejectsABadChecksum : Obligations.FeedRejectsABadChecksum := by
  intro s c b hs hc hl ht f h3 hle hsum
  have hi := hs.chan_inv hc
  have hcomplete := (hi.fed_complete_iff s.time b).2 ⟨h3, hle⟩
  rw [exec_feed_of_holding hc hl ht,
    Channel.settle_of_bad_sum hcomplete (by rw [hi.fed_content]; exact hsum)]
  rfl

/-- Settles O30: the appended channel settles by discarding an incomplete candidate at CAP bytes. -/
theorem feedOverflowsAtCapacity : Obligations.FeedOverflowsAtCapacity := by
  intro s c b hs hc hl ht f hincomplete hfull
  have hi := hs.chan_inv hc
  rw [exec_feed_of_holding hc hl ht,
    Channel.settle_of_full (mt (hi.fed_complete_iff s.time b).1 hincomplete) ((hi.fed_len s.time b).trans hfull)]
  rfl

/-- Settles O31: FEED overwrites TLAST, TICK leaves it, and the timeout test of an empty channel does not read it. -/
theorem everyFeedStampsTheTime : Obligations.EveryFeedStampsTheTime := by
  constructor
  · intro s c b hs hc
    refine ⟨_, exec_feed hc b, ?_⟩
    rw [State.answer_chan (hs.chan_lt hc)]
    exact Channel.feed_tlast _ _ _ _ _
  · intro s c b x hs hc hl s'
    have hlt := hs.chan_lt hc
    have hl' : (s'.chan c).len = 0 := (congrArg Channel.len (s.chan_setChan_same c _ hlt)).trans hl
    exact ⟨exec_feed_setChan_tlast hc hlt hl b x, exec_tick_of_empty (s := s') hc hl', exec_tick_of_empty hc hl⟩

/-- Settles O34: the answer to FEED and to TICK is a function of the channel, TIMEOUT_MS, the parameters and the time. -/
theorem channelsAreIndependent : Obligations.ChannelsAreIndependent := by
  intro s c i hc hi
  obtain ⟨f, hf⟩ := exec_answer hi
  refine ⟨(f s.cfg s.timeoutMs s.time (s.chan c)).1, (f s.cfg s.timeoutMs s.time (s.chan c)).2, ?_⟩
  intro s' hcfg hto htime hch
  have hans := hf s' (by rw [hcfg]; exact hc)
  rw [hcfg, hto, htime, hch] at hans
  exact hans

end

section
/-!
DEDUP (spec/42_dedup.md R154, R156, R157, R159): which branch of seenOrRecord a presence, a free place or a full cache selects, the
list of entries that each branch leaves, and the four statements that rest on them.
-/

namespace Sys2Proof.Machine

variable {s : State} {c : ChanNo} {key : List Byte}

/-! ## The branch taken -/

theorem exec_dedup_of_frame (hc : c.toNat < s.cfg.nch) (hv : (s.chan c).ovalid = true) :
    exec (.dedup c) s = .next (s.seenOrRecord c (s.chan c).frame) :=
  execDedup_of_frame hc hv

/-- A pair that stands at index i is refreshed there (R154). -/
theorem State.Inv.seenOrRecord_of_present (hs : s.Inv) {i : Nat} (hp : s.pairs[i]? = some (c, key)) :
    s.seenOrRecord c key = (s.refreshEntry i).respond evDup (BitVec.ofNat 32 i) := by
  simp [State.seenOrRecord, hs.scan_of_pairs hp]

/-- An absent pair goes into a cache that is not full (R156). -/
theorem State.Inv.seenOrRecord_of_absent_of_lt (hs : s.Inv) (hn : (c, key) ∉ s.pairs) (hlt : s.dcount < s.cfg.n) :
    s.seenOrRecord c key = (s.insertEntry c key).respond evNone (BitVec.ofNat 32 s.dcount) := by
  simp [State.seenOrRecord, (hs.scan_eq_none_iff c key).2 hn, hlt]

/-- An absent pair takes the place of entry 0's in a full cache (R157). -/
theorem State.Inv.seenOrRecord_of_absent_of_full (hs : s.Inv) (hn : (c, key) ∉ s.pairs) (hfull : s.dcount = s.cfg.n) :
    s.seenOrRecord c key = (s.evictEntry c key).respond evEvict (BitVec.ofNat 32 (s.cfg.n - 1)) := by
  simp [State.seenOrRecord, (hs.scan_eq_none_iff c key).2 hn, hfull]

/-! ## The entries left -/

/-- The cache modifies an entry where the statements overwrite it. -/
theorem modify_eq_set_of_getElem? {α : Type} {l : List α} {i : Nat} {a : α} (h : l[i]? = some a) (f : α → α) :
    l.modify i f = l.set i (f a) := by
  rw [List.modify_eq_set_getElem?, h]
  rfl

theorem State.refreshEntry_eq_set {i : Nat} {e : Entry} (he : s.dent[i]? = some e) :
    s.refreshEntry i = { s with dent := s.dent.set i { e with ts := s.time } } := by
  rw [State.refreshEntry, modify_eq_set_of_getElem? he]

theorem State.insertEntry_eq_set {e : Entry} (he : s.dent[s.dcount]? = some e) :
    s.insertEntry c key =
      { s with dent := s.dent.set s.dcount (e.record c key s.time), dcount := s.dcount + 1 } := by
  rw [State.insertEntry, modify_eq_set_of_getElem? he]

/-- The list keeps its length, the entries above 0 move down by one, and the last place is written. -/
theorem getElem?_drop_one_append {α : Type} {l : List α} {n : Nat} (hl : l.length = n) (hpos : 0 < n) (a : α) :
    (l.drop 1 ++ [a]).length = n ∧ (∀ j, j + 1 < n → (l.drop 1 ++ [a])[j]? = l[j + 1]?) ∧
      (l.drop 1 ++ [a])[n - 1]? = some a := by
  have hdrop : (l.drop 1).length = n - 1 := by rw [List.length_drop, hl]
  refine ⟨?_, fun j hj => ?_, ?_⟩
  · rw [List.length_append, hdrop, List.length_singleton]
    omega
  · rw [List.getElem?_append_left (by omega), List.getElem?_drop, Nat.add_comm]
  · rw [← hdrop, List.getElem?_concat_length]

/-- Evicting shifts the entries down and records the pair in the last slot. -/
theorem State.Inv.evictEntry_shifts (hs : s.Inv) :
    ∃ slot : Entry, (s.evictEntry c key).dent.length = s.cfg.n ∧
      (∀ j, j + 1 < s.cfg.n → (s.evictEntry c key).dent[j]? = s.dent[j + 1]?) ∧
      (s.evictEntry c key).dent[s.cfg.n - 1]? = some (slot.record c key s.time) :=
  ⟨_, getElem?_drop_one_append hs.dent_length hs.cfg_ok.n_pos _⟩

end Sys2Proof.Machine

open Sys2Proof Sys2Proof.Machine

/-- Settles O41: the entry's pair stands at index i, where the scan finds it. -/
theorem dedupRefreshesADuplicateInPlace : Obligations.DedupRefreshesADuplicateInPlace := by
  intro s c i e hs hc hv hi he hsnd hframe
  have hp : s.pairs[i]? = some (c, (s.chan c).frame) := by
    rw [s.pairs_getElem? i hi, he, Option.map_some, hsnd, hframe]
  rw [exec_dedup_of_frame hc hv, hs.seenOrRecord_of_present hp, State.refreshEntry_eq_set he]
  rfl

/-- Settles O42: the entry is the first unused slot with the new pair recorded in it. -/
theorem dedupInsertsAtTheEnd : Obligations.DedupInsertsAtTheEnd := by
  intro s c hs hc hv hn hlt
  have hlen : s.dcount < s.dent.length := hs.dent_length.symm ▸ hlt
  have hslot := List.getElem?_eq_getElem hlen
  refine ⟨_, s.dent[s.dcount].record c (s.chan c).frame s.time, exec_dedup_of_frame hc hv, ?_⟩
  rw [hs.seenOrRecord_of_absent_of_lt hn hlt, State.insertEntry_eq_set hslot]
  exact ⟨List.getElem?_set_self hlen, rfl, rfl, Entry.record_frame _ _ _ _, rfl, rfl⟩

/-- Settles O43: the entries are those above 0 moved down, and the last slot with the new pair recorded in it. -/
theorem dedupEvictsEntryZero : Obligations.DedupEvictsEntryZero := by
  intro s c hs hc hv hn hfull
  obtain ⟨slot, hlength, hshift, hlast⟩ := hs.evictEntry_shifts (c := c) (key := (s.chan c).frame)
  refine ⟨_, slot.record c (s.chan c).frame s.time, exec_dedup_of_frame hc hv, ?_⟩
  rw [hs.seenOrRecord_of_absent_of_full hn hfull]
  exact ⟨hfull, hlength, hshift, hlast, rfl, rfl, Entry.record_frame _ _ _ _, rfl, rfl⟩

/-- Settles O40: without a frame DEDUP only writes the output ports. -/
theorem dedupWithoutAFrameChangesNothing : Obligations.DedupWithoutAFrameChangesNothing := by
  intro s c hc hv
  exact execDedup_of_noframe hc hv

end

section
/-!
NOP and CSRW (spec/43_readout_csr.md R181, R189): the only legal word of an opcode that a single well-formed instruction has, CSRW
with any other operand, and the two statements that rest on them.
-/

namespace Sys2Proof

/-- If `i` is well-formed and no other well-formed instruction has the opcode of `w`, then `w` is legal iff it is the word of `i`. -/
theorem legal_iff_eq_encode {cfg : Config} {w : Word} {i : Instr} (hi : i.wellFormed cfg = true)
    (honly : ∀ j : Instr, j.wellFormed cfg = true → opField (encode j) = opField w → j = i) :
    legal cfg w = true ↔ w = encode i := by
  rw [legal_iff]
  constructor
  · rintro ⟨j, hj⟩
    obtain ⟨hw, hwf⟩ := (decode_eq_ok_iff_encode Iff.rfl).1 hj
    rw [← honly j hwf (congrArg opField hw), hw]
  · rintro rfl
    exact ⟨i, (decode_eq_ok_iff_encode_of_wellFormed hi).2 rfl⟩

theorem eq_nop_of_opField {j : Instr} (h : opField (encode j) = 0x0#4) : j = .nop := by
  cases j with
  | nop => rfl
  | _ => simp [encode] at h

theorem exists_csrw_of_opField {j : Instr} (h : opField (encode j) = 0xB#4) : ∃ c r, j = .csrw c r := by
  cases j with
  | csrw c r => exact ⟨c, r, rfl⟩
  | _ => simp [encode] at h

/-- The only legal word with OP = 0x0 (R181). -/
theorem legal_nop_word_iff {w : Word} (hop : opField w = 0x0#4) (cfg : Config) :
    legal cfg w = true ↔ w = 0x00000000#32 :=
  legal_iff_eq_encode (i := .nop) rfl fun _ _ hj => eq_nop_of_opField (hj.trans hop)

/-- The only legal word with OP = 0xB (R189): CSRW of no other register and on no other channel is well-formed. -/
theorem legal_csrw_word_iff {w : Word} (hop : opField w = 0xB#4) (cfg : Config) :
    legal cfg w = true ↔ w = 0xB0000000#32 := by
  refine legal_iff_eq_encode (i := .csrw 0#4 .timeoutMs) rfl fun j hwf hj => ?_
  obtain ⟨c, r, rfl⟩ := exists_csrw_of_opField (hj.trans hop)
  obtain ⟨rfl, rfl⟩ := (wellFormed_csrw_iff cfg c r).1 hwf
  rfl

end Sys2Proof

namespace Sys2Proof.Machine

theorem exec_csrw_of_ne {c : ChanNo} {r : Csr} (h : c ≠ 0#4 ∨ r ≠ .timeoutMs) (s : State) :
    exec (.csrw c r) s = .next s.illegal := by
  rcases execCsrw_cases c r s with ⟨rfl, rfl, -⟩ | ⟨-, he⟩
  · simp at h
  · exact he

end Sys2Proof.Machine

open Sys2Proof Sys2Proof.Machine

/-- Settles O55: a CSRW other than that of TIMEOUT_MS is the illegal response, and a word with its opcode other than its encoding
falls under R84. -/
theorem csrwWritesTheTimeoutOnly : Obligations.CsrwWritesTheTimeoutOnly := by
  refine ⟨exec_csrw_timeoutMs, fun s c r h => exec_csrw_of_ne h s, fun cfg w hop => legal_csrw_word_iff hop cfg, ?_⟩
  intro s p rest hq hr hop hne
  apply step_of_isIllegal hq hr
  by_contra hlegal
  exact hne ((legal_csrw_word_iff hop s.cfg).1 ((legal_iff_not_isIllegal s.cfg p.cmd).2 hlegal))

/-- Settles O50: NOP only writes the output ports, and no other instruction has its opcode. -/
theorem nopDoesNothing : Obligations.NopDoesNothing :=
  ⟨fun _ => rfl, fun cfg _ hop => legal_nop_word_iff hop cfg⟩

end

section
/-!
The command word read and written (spec/30_encoding.md section 3, spec/10_state.md section 3): the three statements that rest on the
decoder's reading an instruction from exactly the words that encode it, and the CSR map.
-/

open Sys2Proof Sys2Proof.Machine

/-- Settles O1: an encoded instruction is read back from its word, and its operands are well-formed. -/
theorem decodeOfEncodeIsIdentity : Obligations.DecodeOfEncodeIsIdentity :=
  fun _ _ h => (decode_eq_ok_iff_encode_of_wellFormed h).2 rfl

/-- Settles O2: the converse direction of the same equivalence. -/
theorem encodeOfDecodeIsIdentity : Obligations.EncodeOfDecodeIsIdentity :=
  fun _ _ _ h => (decode_eq_ok_iff_encode Iff.rfl).1 h

/-- Settles O5: a number that names a register is the number of one of the nine. -/
theorem csrNumbersFollowTheMap : Obligations.CsrNumbersFollowTheMap := by
  refine ⟨rfl, rfl, rfl, rfl, rfl, rfl, rfl, rfl, rfl, fun i hi => ?_⟩
  rw [Option.eq_none_iff_forall_ne_some]
  intro r hr
  rw [← Csr.num_of_ofNum hr] at hi
  cases r <;> revert hi <;> decide

/-- Settles O6: each word is the encoding of its command, which is well-formed under the defaults. -/
theorem specWordsDecode : Obligations.SpecWordsDecode := by
  refine ⟨?_, ?_, ?_, ?_, ?_, ?_, ?_⟩
  all_goals exact (decode_eq_ok_iff_encode_of_wellFormed rfl).2 rfl

end

section
/-!
Steps and the invariant (spec/10_state.md section 2, R38, R240): what a step does with each presentation, the entries that each cache
update leaves, every command keeps the invariant, and the statements about steps and reset that rest on them.
-/

namespace Sys2Proof.Machine

variable {s t : State} {p : HostIn} {rest : List HostIn}

/-! ## What a step does with a presentation -/

theorem step_of_idle (hq : s.queue = []) : step s = .next s := by
  rw [step, State.accept_nil hq]

theorem step_of_rst (hq : s.queue = p :: rest) (hr : p.rst = true) :
    step s = .next (State.applyReset { s with inp := p, queue := rest }) := by
  rw [step, State.accept_cons hq]
  exact if_pos hr

theorem step_of_decode (hq : s.queue = p :: rest) (hr : p.rst = false) {i : Instr} (hd : decode s.cfg p.cmd = .ok i) :
    step s = exec i { s with inp := p, queue := rest } := by
  rw [step, State.accept_cons hq]
  simp [hr, hd]

theorem step_of_decode_error (hq : s.queue = p :: rest) (hr : p.rst = false) {e : IllegalWord}
    (hd : decode s.cfg p.cmd = .error e) : step s = .next (State.illegal { s with inp := p, queue := rest }) := by
  rw [step, State.accept_cons hq]
  simp [hr, hd]

/-! ## The entries in use after a cache update -/

theorem State.refreshEntry_used (s : State) (i : Nat) :
    (s.refreshEntry i).used = s.used.modify i (fun e => { e with ts := s.time }) :=
  List.take_modify ..

theorem State.insertEntry_used {c : ChanNo} {key : List Byte} (h : s.dcount < s.dent.length) :
    (s.insertEntry c key).used = s.used ++ [s.dent[s.dcount].record c key s.time] := by
  simp only [State.used, State.insertEntry_dent, State.insertEntry_dcount]
  rw [← List.take_append_getElem (by rwa [List.length_modify]), List.getElem_modify_eq, List.take_modify,
    List.modify_eq_self (List.length_take_le _ _)]

theorem State.evictEntry_used {c : ChanNo} {key : List Byte} (h : s.dcount = s.dent.length) (hpos : 0 < s.dcount) :
    (s.evictEntry c key).used =
      s.used.drop 1 ++ [(s.dent.getD (s.cfg.n - 1) (Entry.reset s.cfg)).record c key s.time] := by
  simp only [State.used, State.evictEntry_dent, State.evictEntry_dcount]
  rw [List.take_of_length_le (by simp; omega), List.take_of_length_le (by omega)]

/-! ## The invariant -/

theorem State.resetOf_inv {cfg : Config} (hok : cfg.Ok) : (State.resetOf cfg).Inv where
  cfg_ok := hok
  chans_length := List.length_replicate
  chans_inv := fun ch hch => List.eq_of_mem_replicate hch ▸ Channel.reset_inv hok
  timeout_lt := hok.timeoutReset_lt
  dent_length := List.length_replicate
  dcount_le := Nat.zero_le _
  key_length := fun e he => List.eq_of_mem_replicate he ▸ List.length_replicate
  used_inv := by simp [State.used, State.resetOf]
  pairs_nodup := by simp [State.pairs, State.used, State.resetOf]

/-- The invariant speaks of neither the ports nor what the host presents. -/
theorem State.Inv.withPorts (h : s.Inv) (inp : HostIn) (ev : Ev) (rdata : Word) (queue : List HostIn) :
    State.Inv { s with inp := inp, ev := ev, rdata := rdata, queue := queue } := { h with }

theorem State.Inv.respond (h : s.Inv) (e : Ev) (r : Word) : (s.respond e r).Inv := h.withPorts _ _ _ _

theorem State.Inv.setChan (h : s.Inv) (c : ChanNo) {ch : Channel} (hch : ch.Inv s.cfg) : (s.setChan c ch).Inv :=
  { h with
    chans_length := List.length_set.trans h.chans_length
    chans_inv := fun _ hd => (List.mem_or_eq_of_mem_set hd).elim (h.chans_inv _) (· ▸ hch) }

theorem State.Inv.withTimeout (h : s.Inv) {v : Time} (hv : v.toNat < 2 ^ s.cfg.timeW) :
    State.Inv { s with timeoutMs := v } := { h with timeout_lt := hv }

theorem forall_mem_modify {α : Type} {P : α → Prop} {l : List α} {f : α → α} (i : Nat) (h : ∀ a ∈ l, P a)
    (hf : ∀ a ∈ l, P (f a)) : ∀ a ∈ l.modify i f, P a := by
  intro a ha
  obtain ⟨j, hj, rfl⟩ := List.getElem_of_mem ha
  rw [List.getElem_modify]
  split
  · exact hf _ (List.getElem_mem _)
  · exact h _ (List.getElem_mem _)

theorem State.Inv.refreshEntry (h : s.Inv) (i : Nat) : (s.refreshEntry i).Inv :=
  { h with
    dent_length := (List.length_modify ..).trans h.dent_length
    key_length := forall_mem_modify i h.key_length h.key_length
    used_inv := by
      rw [State.refreshEntry_used]
      exact forall_mem_modify i h.used_inv fun e he => { h.used_inv e he with ts_lt := s.time_lt }
    pairs_nodup := s.refreshEntry_pairs i ▸ h.pairs_nodup }

section
variable {c : ChanNo} {key : List Byte} (hc : c.toNat < s.cfg.nch) (hkey : ValidFrame s.cfg key)
include hc hkey

/-- A slot given a valid frame of a channel that exists is a well-formed entry (R29). -/
theorem Entry.record_inv (slot : Entry) : (slot.record c key s.time).Inv s.cfg where
  snd_lt := hc
  klen_le := hkey.length_le
  ts_lt := s.time_lt
  valid_frame := (slot.record_frame c key s.time).symm ▸ hkey

omit hc in
theorem Entry.record_key_length {slot : Entry} (hslot : slot.key.length = s.cfg.cap) :
    (slot.record c key s.time).key.length = s.cfg.cap :=
  (writeLow_length (hslot ▸ hkey.length_le)).trans hslot

theorem State.Inv.insertEntry (h : s.Inv) (hn : (c, key) ∉ s.pairs) (hlt : s.dcount < s.cfg.n) :
    (s.insertEntry c key).Inv := by
  have hlen : s.dcount < s.dent.length := h.dent_length ▸ hlt
  exact { h with
    dent_length := (List.length_modify ..).trans h.dent_length
    dcount_le := hlt
    key_length := forall_mem_modify _ h.key_length fun e he => Entry.record_key_length hkey (h.key_length e he)
    used_inv := by
      rw [State.insertEntry_used hlen]
      exact List.forall_mem_append.2 ⟨h.used_inv, List.forall_mem_singleton.2 (Entry.record_inv hc hkey _)⟩
    pairs_nodup := by
      rw [State.insertEntry_pairs _ _ _ hlen]
      exact List.concat_eq_append ▸ h.pairs_nodup.concat hn }

theorem State.Inv.evictEntry (h : s.Inv) (hn : (c, key) ∉ s.pairs) (hfull : s.dcount = s.cfg.n) :
    (s.evictEntry c key).Inv := by
  have hlen : s.dcount = s.dent.length := hfull.trans h.dent_length.symm
  have hpos : 0 < s.cfg.n := h.cfg_ok.n_pos
  have hslot : s.dent.getD (s.cfg.n - 1) (Entry.reset s.cfg) ∈ s.dent := by
    have hi : s.cfg.n - 1 < s.dent.length := by omega
    rw [List.getD_eq_getElem _ _ hi]
    exact List.getElem_mem hi
  exact { h with
    dent_length := (getElem?_drop_one_append h.dent_length hpos _).1
    key_length := List.forall_mem_append.2 ⟨fun e he => h.key_length e (List.mem_of_mem_drop he),
      List.forall_mem_singleton.2 (Entry.record_key_length hkey (h.key_length _ hslot))⟩
    used_inv := by
      rw [State.evictEntry_used hlen (hfull ▸ hpos)]
      exact List.forall_mem_append.2 ⟨fun e he => h.used_inv e (List.mem_of_mem_drop he),
        List.forall_mem_singleton.2 (Entry.record_inv hc hkey _)⟩
    pairs_nodup := by
      rw [State.evictEntry_pairs _ _ _ hlen (hfull ▸ hpos)]
      exact List.concat_eq_append ▸
        (h.pairs_nodup.sublist (List.drop_sublist 1 _)).concat (fun hd => hn (List.mem_of_mem_drop hd)) }

/-- Recording a valid frame of a channel that exists keeps the invariant. -/
theorem State.Inv.seenOrRecord (h : s.Inv) : (s.seenOrRecord c key).Inv := by
  rcases h.seenOrRecord_cases c key with ⟨i, -, -, he, -⟩ | ⟨hn, hlt, he, -⟩ | ⟨hn, hfull, he, -⟩ <;> rw [he]
  · exact (h.refreshEntry i).respond _ _
  · exact (h.insertEntry hc hkey hn hlt).respond _ _
  · exact (h.evictEntry hc hkey hn hfull).respond _ _

end

/-- Every command keeps the invariant. -/
theorem State.Inv.exec (h : s.Inv) {i : Instr} (he : exec i s = .next t) : t.Inv := by
  have hcap : 0 < s.cfg.cap := Nat.zero_lt_of_lt h.cfg_ok.cap_ge
  rcases exec_next_cases he with
    rfl | ⟨-, v, rfl⟩ | ⟨c, b, -, hc, rfl⟩ | ⟨c, -, hc, rfl⟩ | ⟨c, -, hc, ⟨-, rfl⟩ | ⟨hv, rfl⟩⟩ | ⟨-, rfl⟩
  · exact h.respond _ _
  · exact h.respond _ _
  · exact (h.setChan c ((h.chan_inv hc).feed h.cfg_ok _ s.time_lt b)).respond _ _
  · exact (h.setChan c ((h.chan_inv hc).timeoutTest hcap _ _)).respond _ _
  · exact h.respond _ _
  · exact h.seenOrRecord hc ((h.chan_inv hc).valid_frame hv)
  · exact (h.withTimeout (truncTime_lt _ _)).respond _ _

theorem State.Inv.step (h : s.Inv) (hs : step s = .next t) : t.Inv := by
  rcases step_next_cases hs with
    ⟨-, rfl⟩ | ⟨p, rest, -, ⟨-, rfl⟩ | ⟨-, i, -, he⟩ | ⟨-, -, rfl⟩⟩
  · exact h
  · exact (State.resetOf_inv h.cfg_ok).withPorts _ _ _ _
  · exact (h.withPorts p _ _ rest).exec he
  · exact (h.withPorts p _ _ rest).respond _ _

end Sys2Proof.Machine

open Sys2Proof Sys2Proof.Machine

/-- Settles O16: a step idles, resets, executes a command or reports an illegal word, and each keeps the invariant. -/
theorem everyStepKeepsTheInvariant : Obligations.EveryStepKeepsTheInvariant :=
  fun _ _ h hs => h.step hs

/-- Settles O15: the invariant holds after reset under parameters in range, as the defaults are. -/
theorem invariantHoldsAtReset : Obligations.InvariantHoldsAtReset :=
  ⟨fun _ hok => State.resetOf_inv hok, State.resetOf_inv (by constructor <;> decide)⟩

/-- Settles O7: the step rule of a decoded word. -/
theorem stepRunsTheDecodedCommand : Obligations.StepRunsTheDecodedCommand :=
  fun _ _ _ _ hq hr hd => step_of_decode hq hr hd

/-- Settles O8: a step with `rst` asserted answers the reset state with that presentation on its ports. -/
theorem resetPresentationResets : Obligations.ResetPresentationResets := by
  intro s p rest hq hr
  obtain ⟨hlen, hchans, -⟩ := resetStateHoldsTheResetValues.1 s.cfg
  exact ⟨_, step_of_rst hq hr, rfl, hlen, hchans, rfl, rfl, rfl, rfl, rfl⟩

/-- Settles O10: the step rule of an empty queue. -/
theorem idleStepHoldsTheState : Obligations.IdleStepHoldsTheState :=
  fun _ hq => step_of_idle hq

end

section
/-!
What commands answer (spec/43_readout_csr.md, spec/42_dedup.md R160 to R163, spec/60_exceptions.md R210, R213, R214): one rule per
readout, every well-formed command by its kind, an ill-formed one, what of the ports a command reads, and the statements that rest
on them.
-/

namespace Sys2Proof.Machine

variable {s t : State} {c : ChanNo}

/-! ## Readouts of an entry -/

theorem State.usedEntry_of_lt {i : Nat} (hi : i < s.dcount) : s.usedEntry i = s.dent[i]? := if_pos hi

theorem State.usedEntry_of_le {i : Nat} (hi : s.dcount ≤ i) : s.usedEntry i = none := if_neg (Nat.not_lt.2 hi)

section
variable {i : BitVec 8} {e : Entry}

theorem exec_dmeta_of_used (h : s.usedEntry i.toNat = some e) : exec (.dmeta i) s =
    .next (s.respond evNone (1#1 ++ 0#3 ++ e.snd ++ 0#15 ++ BitVec.ofNat 9 e.klen)) := by
  simp only [exec, execDmeta, h]

theorem exec_dmeta_of_unused (h : s.usedEntry i.toNat = none) :
    exec (.dmeta i) s = .next (s.respond evNone 0#32) := by
  simp only [exec, execDmeta, h]

theorem exec_dtime_of_used (h : s.usedEntry i.toNat = some e) :
    exec (.dtime i) s = .next (s.respond evNone e.ts) := by
  simp only [exec, execDtime, h]

theorem exec_dtime_of_unused (h : s.usedEntry i.toNat = none) :
    exec (.dtime i) s = .next (s.respond evNone 0#32) := by
  simp only [exec, execDtime, h]

theorem exec_dbyte_of_used (h : s.usedEntry i.toNat = some e) (k : BitVec 8) :
    exec (.dbyte i k) s = .next (s.respond evNone ((e.keyByte k.toNat).setWidth 32)) := by
  simp only [exec, execDbyte, h]

theorem exec_dbyte_of_unused (h : s.usedEntry i.toNat = none) (k : BitVec 8) :
    exec (.dbyte i k) s = .next (s.respond evNone 0#32) := by
  simp only [exec, execDbyte, h]

end

/-! ## Readouts of a channel -/

theorem exec_fmeta (hc : c.toNat < s.cfg.nch) : exec (.fmeta c) s =
    .next (s.respond evNone (BitVec.ofBool (s.chan c).ovalid ++ 0#22 ++ BitVec.ofNat 9 (s.chan c).olen)) :=
  if_pos ((s.hasChan_iff c).2 hc)

theorem exec_fbyte (hc : c.toNat < s.cfg.nch) (k : BitVec 8) :
    exec (.fbyte c k) s = .next (s.respond evNone (((s.chan c).frameByte k.toNat).setWidth 32)) :=
  if_pos ((s.hasChan_iff c).2 hc)

theorem exec_bbyte (hc : c.toNat < s.cfg.nch) (k : BitVec 8) :
    exec (.bbyte c k) s = .next (s.respond evNone (((s.chan c).bufByte k.toNat).setWidth 32)) :=
  if_pos ((s.hasChan_iff c).2 hc)

theorem csrReadable_eq_wellFormed (cfg : Config) (c : ChanNo) (r : Csr) :
    csrReadable cfg c r = (Instr.csrr c r).wellFormed cfg := by
  cases r <;> rfl

/-! ## Bytes of an array's used part -/

/-- The byte readouts test the offset, which is to read the used part with default 0. -/
theorem ite_getD_eq_getD_take (bs : List Byte) (n k : Nat) :
    (if k < n then bs.getD k 0#8 else 0#8) = (bs.take n).getD k 0#8 := by
  simp only [List.getD_eq_getElem?_getD, List.getElem?_take]
  split <;> rfl

theorem Channel.frameByte_eq (ch : Channel) (k : Nat) : ch.frameByte k = ch.frame.getD k 0#8 :=
  ite_getD_eq_getD_take ..

theorem Channel.bufByte_eq (ch : Channel) (k : Nat) : ch.bufByte k = ch.content.getD k 0#8 :=
  ite_getD_eq_getD_take ..

theorem Entry.keyByte_eq (e : Entry) (k : Nat) : e.keyByte k = e.frame.getD k 0#8 :=
  ite_getD_eq_getD_take ..

theorem getD_take_of_lt {bs : List Byte} {n k : Nat} {b : Byte} (hk : k < n) (hb : bs[k]? = some b) :
    (bs.take n).getD k 0#8 = b := by
  rw [List.getD_eq_getElem?_getD, List.getElem?_take_of_lt hk, hb]
  rfl

theorem getD_take_of_le {bs : List Byte} {n k : Nat} (hk : n ≤ k) : (bs.take n).getD k 0#8 = 0#8 :=
  List.getD_eq_default _ _ ((List.length_take_le n bs).trans hk)

/-! ## Commands by their kind -/

theorem exec_of_not_wellFormed {i : Instr} (h : i.wellFormed s.cfg = false) : exec i s = .next s.illegal := by
  have hno : ∀ {c : ChanNo}, decide (c.toNat < s.cfg.nch) = false → ¬ s.hasChan c = true :=
    fun hc hex => Bool.false_ne_true (hc.symm.trans hex)
  cases i with
  | nop | dmeta i | dtime i | dbyte i k => cases h
  | csrr c r => exact if_neg (by rw [csrReadable_eq_wellFormed, h]; decide)
  | csrw c r =>
    rw [← Bool.not_eq_true, wellFormed_csrw_iff, not_and_or, or_comm] at h
    exact exec_csrw_of_ne h s
  | _ => exact if_neg (hno h)

theorem exec_readOnly_of_wellFormed {i : Instr} (hr : readOnly i = true) (hw : i.wellFormed s.cfg = true) :
    ∃ v, exec i s = .next (s.respond evNone v) := by
  cases i with
  | nop => exact ⟨_, rfl⟩
  | dmeta e => exact execDmeta_shape e s
  | dtime e => exact execDtime_shape e s
  | dbyte e k => exact execDbyte_shape e k s
  | fmeta c => exact ⟨_, exec_fmeta (of_decide_eq_true hw)⟩
  | fbyte c k => exact ⟨_, exec_fbyte (of_decide_eq_true hw) k⟩
  | bbyte c k => exact ⟨_, exec_bbyte (of_decide_eq_true hw) k⟩
  | csrr c r => exact ⟨_, exec_csrr_of_readable ((csrReadable_eq_wellFormed _ _ _).trans hw)⟩
  | feed c b => cases hr
  | tick c => cases hr
  | dedup c => cases hr
  | csrw c r => cases hr

/-- What a well-formed command answers: a read-out value, one channel fed or tested, the cache consulted, or TIMEOUT_MS written. -/
theorem exec_wellFormed_cases (i : Instr) (hw : i.wellFormed s.cfg = true) :
    (readOnly i = true ∧ ∃ v, exec i s = .next (s.respond evNone v)) ∨
    (∃ c b, i = .feed c b ∧ exec i s = .next (s.answer c ((s.chan c).feed s.cfg s.timeoutMs s.time b))) ∨
    (∃ c, i = .tick c ∧ exec i s = .next (s.answer c ((s.chan c).timeoutTest s.cfg s.timeoutMs s.time))) ∨
    (∃ c, i = .dedup c ∧
      (exec i s = .next (s.respond evNoframe 0#32) ∨ exec i s = .next (s.seenOrRecord c (s.chan c).frame))) ∨
    (i = .csrw 0#4 .timeoutMs ∧
      exec i s = .next (State.respond { s with timeoutMs := truncTime s.cfg s.inp.wdata } evNone 0#32)) := by
  by_cases hr : readOnly i = true
  · exact .inl ⟨hr, exec_readOnly_of_wellFormed hr hw⟩
  · cases i with
    | feed c b => exact .inr (.inl ⟨c, b, rfl, exec_feed (of_decide_eq_true hw) b⟩)
    | tick c => exact .inr (.inr (.inl ⟨c, rfl, exec_tick (of_decide_eq_true hw)⟩))
    | dedup c =>
      refine .inr (.inr (.inr (.inl ⟨c, rfl, ?_⟩)))
      cases hv : (s.chan c).ovalid
      · exact .inl (execDedup_of_noframe (of_decide_eq_true hw) hv)
      · exact .inr (exec_dedup_of_frame (of_decide_eq_true hw) hv)
    | csrw c r =>
      obtain ⟨rfl, rfl⟩ := (wellFormed_csrw_iff _ _ _).1 hw
      exact .inr (.inr (.inr (.inr ⟨rfl, exec_csrw_timeoutMs s⟩)))
    | _ => exact absurd rfl hr

theorem exec_answers (i : Instr) (s : State) : ∃ t, exec i s = .next t := by
  cases hw : i.wellFormed s.cfg with
  | false => exact ⟨_, exec_of_not_wellFormed hw⟩
  | true =>
    rcases exec_wellFormed_cases i hw with
      ⟨-, v, he⟩ | ⟨c, b, -, he⟩ | ⟨c, -, he⟩ | ⟨c, -, he | he⟩ | ⟨-, he⟩ <;> exact ⟨_, he⟩

theorem step_answers (s : State) : ∃ t, step s = .next t := by
  cases hq : s.queue with
  | nil => exact ⟨_, step_of_idle hq⟩
  | cons p rest =>
    cases hr : p.rst with
    | true => exact ⟨_, step_of_rst hq hr⟩
    | false =>
      cases hd : decode s.cfg p.cmd with
      | ok i => exact step_of_decode hq hr hd ▸ exec_answers i _
      | error e => exact ⟨_, step_of_decode_error hq hr hd⟩

/-! ## Events -/

theorem Channel.timeoutTest_ev_mem (cfg : Config) (timeoutMs now : Time) (ch : Channel) :
    (ch.timeoutTest cfg timeoutMs now).2 ∈ [evNone, evTimeout] := by
  rcases ch.timeoutTest_cases cfg timeoutMs now with ⟨-, he⟩ | ⟨-, he⟩ <;> rw [he] <;> simp

/-- The vectors of R133: EV_TIMEOUT comes alone or with EV_DROP, since one byte on the emptied channel neither completes a frame nor
fills the buffer. -/
theorem Channel.feed_ev_mem {cfg : Config} (hok : cfg.Ok) (timeoutMs now : Time) (b : Byte) (ch : Channel) :
    (ch.feed cfg timeoutMs now b).2 ∈
      [evNone, evDrop, evTimeout, raise evTimeout evDrop, evFrame, evCsumErr, evOverflow] := by
  have hev := ch.timeoutTest_ev_mem cfg timeoutMs now
  simp only [List.mem_cons, List.not_mem_nil, or_false] at hev
  by_cases h0 : (ch.stamped cfg timeoutMs now).len = 0
  · by_cases hb : b = cfg.marker0
    · rw [Channel.feed_of_marker hok h0 hb]
      rcases hev with he | he <;> simp [he]
    · rw [Channel.feed_of_dropped h0 hb]
      rcases hev with he | he <;> simp [he]
  · rw [Channel.feed_of_appended (.inl h0), Channel.timeoutTest_of_not (Channel.not_timedOut_of_stamped h0)]
    rcases Channel.settle_cases cfg (Channel.append (ch.stamped cfg timeoutMs now) b) evNone with
      ⟨-, -, he⟩ | ⟨-, -, he⟩ | ⟨-, -, he⟩ | ⟨-, -, he⟩ <;> simp [he]

theorem allowedEvents_of_readOnly {i : Instr} (hr : readOnly i = true) : allowedEvents i = [evNone] := by
  cases i with
  | feed | tick | dedup | csrw => cases hr
  | _ => rfl

theorem State.seenOrRecord_ev_mem (s : State) (c : ChanNo) (key : List Byte) :
    (s.seenOrRecord c key).ev ∈ [evNone, evDup, evEvict] := by
  unfold State.seenOrRecord
  split
  · simp
  · split <;> simp

/-! ## What seenOrRecord leaves -/

section
variable (s : State) (c : ChanNo) (key : List Byte)

@[simp] theorem State.seenOrRecord_cfg : (s.seenOrRecord c key).cfg = s.cfg := by
  rw [State.seenOrRecord_frame]

@[simp] theorem State.seenOrRecord_chans : (s.seenOrRecord c key).chans = s.chans := by
  rw [State.seenOrRecord_frame]

@[simp] theorem State.seenOrRecord_timeoutMs : (s.seenOrRecord c key).timeoutMs = s.timeoutMs := by
  rw [State.seenOrRecord_frame]

@[simp] theorem State.seenOrRecord_inp : (s.seenOrRecord c key).inp = s.inp := by
  rw [State.seenOrRecord_frame]

@[simp] theorem State.seenOrRecord_queue : (s.seenOrRecord c key).queue = s.queue := by
  rw [State.seenOrRecord_frame]

@[simp] theorem State.seenOrRecord_chan (d : ChanNo) : (s.seenOrRecord c key).chan d = s.chan d := by
  simp [State.chan]

end

theorem exec_keeps_ports {i : Instr} (h : exec i s = .next t) : t.cfg = s.cfg ∧ t.inp = s.inp ∧ t.queue = s.queue := by
  rcases exec_next_cases h with
    rfl | ⟨-, v, rfl⟩ | ⟨c, b, -, -, rfl⟩ | ⟨c, -, -, rfl⟩ | ⟨c, -, -, ⟨-, rfl⟩ | ⟨-, rfl⟩⟩ | ⟨-, rfl⟩
  case inr.inr.inr.inr.inl.inr => simp
  all_goals exact ⟨rfl, rfl, rfl⟩

/-! ## What commands read of the ports -/

/-- No command reads an earlier response. -/
theorem exec_respond (i : Instr) (s : State) (e : Ev) (r : Word) : exec i (s.respond e r) = exec i s := by
  cases i <;> rfl

/-- Other inputs on the ports. -/
def State.setInp (s : State) (p : HostIn) : State := { s with inp := p }

/-- An outcome with other inputs on the ports. -/
def withInp (p : HostIn) : Out → Out
  | .next t => .next (t.setInp p)
  | .fault r => .fault r
  | .refused r => .refused r

section
variable (i : Instr) (s : State) (p : HostIn)

theorem State.setInp_cfg : (s.setInp p).cfg = s.cfg := rfl
theorem State.setInp_timeoutMs : (s.setInp p).timeoutMs = s.timeoutMs := rfl
theorem State.setInp_dcount : (s.setInp p).dcount = s.dcount := rfl
theorem State.setInp_hasChan (c : ChanNo) : (s.setInp p).hasChan c = s.hasChan c := rfl
theorem State.setInp_chan (c : ChanNo) : (s.setInp p).chan c = s.chan c := rfl
theorem State.setInp_usedEntry (e : Nat) : (s.setInp p).usedEntry e = s.usedEntry e := rfl
theorem State.setInp_scan (c : ChanNo) (key : List Byte) : (s.setInp p).scan c key = s.scan c key := rfl

/-- The readouts read neither `now` nor `wdata`. -/
theorem exec_readOnly_setInp (hr : readOnly i = true) : exec i (s.setInp p) = withInp p (exec i s) := by
  cases i with
  | nop => rfl
  | dmeta e | dtime e | dbyte e k =>
    cases hu : s.usedEntry e.toNat <;>
      simp only [exec, execDmeta, execDtime, execDbyte, State.setInp_usedEntry, hu] <;> rfl
  | fmeta c | fbyte c k | bbyte c k =>
    cases hc : s.hasChan c <;> simp only [exec, execFmeta, execFbyte, execBbyte, State.setInp_hasChan, hc] <;> rfl
  | csrr c r =>
    cases hc : csrReadable s.cfg c r <;> simp only [exec, execCsrr, State.setInp_cfg, hc] <;> rfl
  | feed c b => cases hr
  | tick c => cases hr
  | dedup c => cases hr
  | csrw c r => cases hr

/-- CSRW does not read `now`. -/
theorem exec_csrw_setInp (c : ChanNo) (r : Csr) (hw : p.wdata = s.inp.wdata) :
    exec (.csrw c r) (s.setInp p) = withInp p (exec (.csrw c r) s) := by
  rcases execCsrw_cases c r s with ⟨rfl, rfl, -⟩ | ⟨hne, -⟩
  · rw [exec_csrw_timeoutMs, exec_csrw_timeoutMs, State.setInp_cfg, State.setInp, hw]
    rfl
  · rw [exec_csrw_of_ne hne, exec_csrw_of_ne hne]
    rfl

section
variable {s p} (htime : (s.setInp p).time = s.time)
include htime

theorem State.seenOrRecord_setInp (c : ChanNo) (key : List Byte) :
    (s.setInp p).seenOrRecord c key = (s.seenOrRecord c key).setInp p := by
  simp only [State.seenOrRecord, State.setInp_scan, State.setInp_cfg, State.setInp_dcount, State.refreshEntry,
    State.insertEntry, State.evictEntry, htime]
  cases s.scan c key with
  | some i => rfl
  | none =>
    dsimp only
    split <;> rfl

/-- No command but CSRW reads the ports other than for the time. -/
theorem exec_setInp_of_time (hi : ∀ c r, i ≠ .csrw c r) : exec i (s.setInp p) = withInp p (exec i s) := by
  by_cases hr : readOnly i = true
  · exact exec_readOnly_setInp i s p hr
  · cases i with
    | feed c b =>
      simp only [exec, execFeed, State.setInp_hasChan, State.setInp_chan, State.setInp_cfg, State.setInp_timeoutMs, htime]
      split <;> rfl
    | tick c =>
      simp only [exec, execTick, State.setInp_hasChan, State.setInp_chan, State.setInp_cfg, State.setInp_timeoutMs, htime]
      split <;> rfl
    | dedup c =>
      simp only [exec, execDedup, State.setInp_hasChan, State.setInp_chan, State.seenOrRecord_setInp htime]
      cases s.hasChan c <;> cases (s.chan c).ovalid <;> rfl
    | csrw c r => exact absurd rfl (hi c r)
    | _ => exact absurd rfl hr

end

end

end Sys2Proof.Machine

open Sys2Proof Sys2Proof.Machine

/-- Settles O11: a command is ill-formed or of one of the kinds that answer, and a step idles, resets, executes or reports. -/
theorem everyCommandAnswersNext : Obligations.EveryCommandAnswersNext :=
  ⟨exec_answers, step_answers⟩

/-- Settles O12: every next state of a command keeps them. -/
theorem commandsKeepParametersAndHostInputs : Obligations.CommandsKeepParametersAndHostInputs :=
  fun _ _ _ h => exec_keeps_ports h

/-- Settles O13: the answer is the illegal response. -/
theorem illFormedInstructionsChangeNothing : Obligations.IllFormedInstructionsChangeNothing :=
  fun _ _ h => exec_of_not_wellFormed h

/-- Settles O14: each kind of command answers with the events of its channel, its cache update or none. -/
theorem legalCommandsRaiseOnlyTheirEvents : Obligations.LegalCommandsRaiseOnlyTheirEvents := by
  intro i s hok hw
  rcases exec_wellFormed_cases i hw with
    ⟨hr, v, he⟩ | ⟨c, b, rfl, he⟩ | ⟨c, rfl, he⟩ | ⟨c, rfl, he | he⟩ | ⟨rfl, he⟩ <;> refine ⟨_, he, ?_⟩
  · rw [allowedEvents_of_readOnly hr]
    exact List.mem_singleton.2 rfl
  · exact Channel.feed_ev_mem hok _ _ _ _
  · exact Channel.timeoutTest_ev_mem _ _ _ _
  · exact List.mem_of_getElem? (i := 3) rfl
  · exact List.mem_append_left [evNoframe] (s.seenOrRecord_ev_mem c _)
  · exact List.mem_singleton.2 rfl

/-- Settles O47: an index is of an entry in use or of none. -/
theorem dmetaReadsAnEntry : Obligations.DmetaReadsAnEntry :=
  fun _ _ => ⟨fun _ hi he => exec_dmeta_of_used ((State.usedEntry_of_lt hi).trans he),
    fun hi => exec_dmeta_of_unused (State.usedEntry_of_le hi)⟩

/-- Settles O48: an index is of an entry in use or of none. -/
theorem dtimeReadsATimestamp : Obligations.DtimeReadsATimestamp :=
  fun _ _ => ⟨fun _ hi he => exec_dtime_of_used ((State.usedEntry_of_lt hi).trans he),
    fun hi => exec_dtime_of_unused (State.usedEntry_of_le hi)⟩

/-- Settles O49: the byte is that of the entry's frame, which reads 0 from its length on. -/
theorem dbyteReadsAKeyByte : Obligations.DbyteReadsAKeyByte := by
  refine fun s i k => ⟨fun e hi he => ?_, fun hi => exec_dbyte_of_unused (State.usedEntry_of_le hi) k⟩
  rw [exec_dbyte_of_used ((State.usedEntry_of_lt hi).trans he), Entry.keyByte_eq, Entry.frame]
  exact ⟨fun b hk hb => by rw [getD_take_of_lt hk hb]; rfl, fun hk => by rw [getD_take_of_le hk]; rfl⟩

/-- Settles O51: FMETA answers from its channel and keeps the rest. -/
theorem fmetaReadsTheFrameStatus : Obligations.FmetaReadsTheFrameStatus :=
  fun _ _ hc => exec_fmeta hc

/-- Settles O52: the byte is that of the output frame, which reads 0 from its length on. -/
theorem fbyteReadsAFrameByte : Obligations.FbyteReadsAFrameByte := by
  intro s c k b hc
  rw [exec_fbyte hc, Channel.frameByte_eq, Channel.frame]
  exact ⟨fun hb hk => by rw [getD_take_of_lt hk hb]; rfl, fun hk => by rw [getD_take_of_le hk]; rfl⟩

/-- Settles O53: the byte is that of the frame in progress, which reads 0 from its length on. -/
theorem bbyteReadsABufferByte : Obligations.BbyteReadsABufferByte := by
  intro s c k b hc
  rw [exec_bbyte hc, Channel.bufByte_eq, Channel.content]
  exact ⟨fun hb hk => by rw [getD_take_of_lt hk hb]; rfl, fun hk => by rw [getD_take_of_le hk]; rfl⟩

/-- Settles O54: a register answers its value where its CH condition holds, and CSRR is ill-formed elsewhere. -/
theorem csrrReadsTheMap : Obligations.CsrrReadsTheMap := by
  intro s c
  have hglobal : ∀ {r : Csr}, r.perChannel = false → exec (.csrr 0#4 r) s = .next (s.respond evNone (s.csr 0#4 r)) :=
    fun hr => exec_csrr_of_readable (csrReadable_of_global s.cfg hr)
  refine ⟨hglobal rfl, hglobal rfl, hglobal rfl, hglobal rfl, hglobal rfl, hglobal rfl, hglobal rfl, ?_, ?_, ?_, ?_⟩
  · exact fun hc => exec_csrr_of_readable (r := .chLen) (decide_eq_true hc)
  · exact fun hc => exec_csrr_of_readable (r := .chTlast) (decide_eq_true hc)
  · intro r hlen htlast hc
    apply exec_of_not_wellFormed
    rw [← Bool.not_eq_true, wellFormed_csrr_iff, if_neg (not_or.2 ⟨hlen, htlast⟩)]
    exact hc
  · intro hc
    exact ⟨exec_of_not_wellFormed (decide_eq_false (Nat.not_lt.2 hc)),
      exec_of_not_wellFormed (decide_eq_false (Nat.not_lt.2 hc))⟩

/-- Settles O57: a readout writes the output ports alone, which no command reads. -/
theorem readoutsChangeNoState : Obligations.ReadoutsChangeNoState := by
  intro i s hr
  rcases exec_readOnly i s hr with he | ⟨v, he⟩ <;> exact ⟨_, he, rfl, (exec_respond i s _ _).trans he⟩

/-- Settles O58: the next state is that without the change, with the changed port. -/
theorem unusedInputsAreNotRead : Obligations.UnusedInputsAreNotRead := by
  intro i s t x v h
  refine ⟨fun hi => ?_, fun hi => ?_⟩
  · have hexec : exec i (s.setInp { s.inp with now := x }) = withInp { s.inp with now := x } (exec i s) := by
      rcases hi with hr | ⟨c, r, rfl⟩
      · exact exec_readOnly_setInp i s _ hr
      · exact exec_csrw_setInp s _ c r rfl
    exact hexec.trans (congrArg _ h)
  · exact (exec_setInp_of_time i (p := { s.inp with wdata := v }) rfl hi).trans (congrArg _ h)

end

section
/-!
Stale bytes (spec/93_implementation_defined.md section 2): the view of a channel, of an entry and of a state after each update is
given by the view before, so states with equal views answer every presentation alike.
-/

namespace Sys2Proof.Machine

/-! ## Views of channels and entries -/

theorem Channel.view_discard (ch : Channel) : ch.discard.view = { ch.view with content := [] } := rfl

theorem Channel.view_emit_discard (ch : Channel) (f : List Byte) :
    (ch.emit f).discard.view = { content := [], tlast := ch.tlast, ovalid := true, frame := f } := by
  rw [Channel.view, Channel.frame_emit]
  rfl

theorem Channel.view_append (ch : Channel) (b : Byte) (h : ch.len < ch.buf.length) :
    (ch.append b).view = { ch.view with content := ch.view.content ++ [b] } := by
  rw [Channel.view, ch.content_append b h]
  rfl

theorem Channel.Inv.len_le {cfg : Config} {ch : Channel} (h : ch.Inv cfg) : ch.len ≤ ch.buf.length :=
  h.buf_length ▸ h.len_lt.le

theorem Channel.Inv.len_eq {cfg : Config} {ch : Channel} (h : ch.Inv cfg) : ch.len = ch.view.content.length :=
  (ch.content_length h.len_le).symm

theorem Channel.Inv.olen_eq {cfg : Config} {ch : Channel} (h : ch.Inv cfg) : ch.olen = ch.view.frame.length :=
  (List.length_take_of_le (h.oframe_length ▸ h.olen_le)).symm

theorem Entry.klen_eq {e : Entry} (h : e.klen ≤ e.key.length) : e.klen = e.view.frame.length :=
  (List.length_take_of_le h).symm

/-! ## FEED and TICK on a channel -/

section
variable {cfg : Config} {ch ch' : Channel} (hv : ch.view = ch'.view)
include hv

/-- The four ends of a FEED are told apart by the frame in progress. -/
theorem Channel.settle_view (h : ch.len ≤ ch.buf.length) (h' : ch'.len ≤ ch'.buf.length) (ev : Ev) :
    Prod.map Channel.view id (ch.settle cfg ev) = Prod.map Channel.view id (ch'.settle cfg ev) := by
  have hcontent : ch.content = ch'.content := congrArg ChanView.content hv
  have htlast : ch.tlast = ch'.tlast := congrArg ChanView.tlast hv
  have hcomplete : ch.complete = true ↔ ch'.complete = true := by
    rw [Channel.complete_iff _ h, Channel.complete_iff _ h', hcontent]
  have hlen : ch.len = ch'.len := by
    rw [← Channel.content_length _ h, ← Channel.content_length _ h', hcontent]
  by_cases hc : ch.complete = true
  · have hc' := hcomplete.1 hc
    by_cases hs : sum8 ch.content = 0
    · rw [Channel.settle_of_valid hc hs, Channel.settle_of_valid hc' (hcontent ▸ hs)]
      simp only [Prod.map_apply, Channel.view_emit_discard, hcontent, htlast]
    · rw [Channel.settle_of_bad_sum hc hs, Channel.settle_of_bad_sum hc' (hcontent ▸ hs)]
      simp only [Prod.map_apply, Channel.view_discard, hv]
  · have hc' := mt hcomplete.2 hc
    by_cases hl : ch.len = cfg.cap
    · rw [Channel.settle_of_full hc hl, Channel.settle_of_full hc' (hlen ▸ hl)]
      simp only [Prod.map_apply, Channel.view_discard, hv]
    · rw [Channel.settle_of_in_progress hc hl, Channel.settle_of_in_progress hc' (hlen ▸ hl)]
      simp only [Prod.map_apply, hv]

variable (h : ch.Inv cfg) (h' : ch'.Inv cfg) (timeoutMs now : Time)
include h h'

theorem Channel.timedOut_view : ch.timedOut cfg timeoutMs now = ch'.timedOut cfg timeoutMs now := by
  have htlast : ch.tlast = ch'.tlast := congrArg ChanView.tlast hv
  rw [Channel.timedOut, Channel.timedOut, h.len_eq, h'.len_eq, hv, htlast]

theorem Channel.timeoutTest_view : Prod.map Channel.view id (ch.timeoutTest cfg timeoutMs now) =
    Prod.map Channel.view id (ch'.timeoutTest cfg timeoutMs now) := by
  have hto := Channel.timedOut_view hv h h' timeoutMs now
  rcases ch.timeoutTest_cases cfg timeoutMs now with ⟨ht, he⟩ | ⟨ht, he⟩ <;> rw [he]
  · rw [Channel.timeoutTest_of_timedOut (hto ▸ ht), Prod.map_apply, Prod.map_apply, Channel.view_discard,
      Channel.view_discard, hv]
  · rw [Channel.timeoutTest_of_not (hto ▸ ht), Prod.map_apply, Prod.map_apply, hv]

theorem Channel.feed_view (hok : cfg.Ok) (hnow : now.toNat < 2 ^ cfg.timeW) (b : Byte) :
    Prod.map Channel.view id (ch.feed cfg timeoutMs now b) = Prod.map Channel.view id (ch'.feed cfg timeoutMs now b) := by
  have hcap : 0 < cfg.cap := Nat.zero_lt_of_lt hok.cap_ge
  obtain ⟨htest, hev⟩ := Prod.ext_iff.1 (Channel.timeoutTest_view hv h h' timeoutMs now)
  have hst : (ch.stamped cfg timeoutMs now).view = (ch'.stamped cfg timeoutMs now).view :=
    congrArg (fun v : ChanView => { v with tlast := now }) htest
  have hi := h.stamped hcap timeoutMs hnow
  have hi' := h'.stamped hcap timeoutMs hnow
  have hlen : (ch.stamped cfg timeoutMs now).len = (ch'.stamped cfg timeoutMs now).len := by
    rw [hi.len_eq, hi'.len_eq, hst]
  rcases ch.feed_cases cfg timeoutMs now b with ⟨h0, hb, he⟩ | ⟨hb, he⟩ <;> rw [he]
  · rw [Channel.feed_of_dropped (hlen ▸ h0) hb]
    exact Prod.ext hst (congrArg (raise · evDrop) hev)
  · have hlt : (ch.stamped cfg timeoutMs now).len < (ch.stamped cfg timeoutMs now).buf.length :=
      hi.buf_length ▸ hi.len_lt
    have hlt' : (ch'.stamped cfg timeoutMs now).len < (ch'.stamped cfg timeoutMs now).buf.length :=
      hi'.buf_length ▸ hi'.len_lt
    have happend : ((ch.stamped cfg timeoutMs now).append b).view = ((ch'.stamped cfg timeoutMs now).append b).view := by
      rw [Channel.view_append _ _ hlt, Channel.view_append _ _ hlt', hst]
    rw [Channel.feed_of_appended (hlen ▸ hb), show (ch.timeoutTest cfg timeoutMs now).2 = _ from hev]
    exact Channel.settle_view happend (by simpa using hlt) (by simpa using hlt') _

end

/-! ## Views of states -/

theorem State.view_respond (s : State) (e : Ev) (r : Word) :
    (s.respond e r).view = { s.view with ev := e, rdata := r } := rfl

theorem State.view_answer (s : State) (c : ChanNo) (r : Channel × Ev) :
    (s.answer c r).view =
      { s.view with chans := s.view.chans.set c.toNat r.1.view, ev := r.2, rdata := 0#32 } := by
  rw [State.view, State.answer, List.map_set]
  rfl

theorem map_modify {α β : Type} {f : α → β} {g : α → α} {g' : β → β} (hfg : ∀ a, f (g a) = g' (f a)) (l : List α)
    (i : Nat) : (l.modify i g).map f = (l.map f).modify i g' := by
  apply List.ext_getElem?
  intro j
  simp only [List.getElem?_map, List.getElem?_modify]
  cases l[j]? with
  | none => split <;> rfl
  | some a =>
    split
    · exact congrArg some (hfg a)
    · rfl

theorem State.view_refreshEntry (s : State) (i : Nat) : (s.refreshEntry i).view =
    { s.view with cache := s.view.cache.modify i (fun v => { v with ts := s.time }) } := by
  rw [State.view, State.refreshEntry_used,
    map_modify (g' := fun v : EntryView => { v with ts := s.time }) (fun _ => rfl : ∀ e : Entry, _)]
  rfl

theorem Entry.view_record (slot : Entry) (c : ChanNo) (key : List Byte) (now : Time) :
    (slot.record c key now).view = { snd := c, frame := key, ts := now } := by
  rw [Entry.view, Entry.record_frame]
  rfl

section
variable {s : State} (h : s.Inv)
include h

theorem State.Inv.view_insertEntry (c : ChanNo) (key : List Byte) (hlt : s.dcount < s.cfg.n) :
    (s.insertEntry c key).view =
      { s.view with cache := s.view.cache ++ [{ snd := c, frame := key, ts := s.time }] } := by
  rw [State.view, State.insertEntry_used (h.dent_length ▸ hlt), List.map_append, List.map_singleton, Entry.view_record]
  rfl

theorem State.Inv.view_evictEntry (c : ChanNo) (key : List Byte) (hfull : s.dcount = s.cfg.n) :
    (s.evictEntry c key).view =
      { s.view with cache := s.view.cache.drop 1 ++ [{ snd := c, frame := key, ts := s.time }] } := by
  rw [State.view, State.evictEntry_used (h.dent_length ▸ hfull) (hfull ▸ h.cfg_ok.n_pos), List.map_append,
    List.map_singleton, Entry.view_record, List.map_drop]
  rfl

theorem State.Inv.dcount_eq : s.dcount = s.view.cache.length :=
  ((List.length_map _).trans (s.used_length h.dcount_le_length)).symm

end

theorem State.pairs_eq (s : State) : s.pairs = s.view.cache.map (fun v => (v.snd, v.frame)) := by
  rw [State.view, List.map_map]
  rfl

theorem State.usedEntry_eq (s : State) (i : Nat) : s.usedEntry i = s.used[i]? := by
  rw [State.used, List.getElem?_take]
  rfl

/-! ## Two states with equal views -/

/-- Two outcomes are next states with equal views. -/
def SameView (o o' : Out) : Prop := ∃ t t', o = .next t ∧ o' = .next t' ∧ t.view = t'.view

section
variable {s s' : State} (hv : s.view = s'.view)
include hv

theorem cfg_of_view : s.cfg = s'.cfg := congrArg StateView.cfg hv

theorem timeoutMs_of_view : s.timeoutMs = s'.timeoutMs := congrArg StateView.timeoutMs hv

theorem time_of_view : s.time = s'.time := State.time_congr (cfg_of_view hv) (congrArg StateView.inp hv)

theorem chan_view_of_view (c : ChanNo) : (s.chan c).view = (s'.chan c).view := by
  rw [State.chan, State.chan, ← List.getD_map _ _ Channel.view, ← List.getD_map _ _ Channel.view, cfg_of_view hv,
    show s.chans.map Channel.view = s'.chans.map Channel.view from congrArg StateView.chans hv]

theorem respond_sameView (e : Ev) (r : Word) : SameView (.next (s.respond e r)) (.next (s'.respond e r)) :=
  ⟨_, _, rfl, rfl, by rw [State.view_respond, State.view_respond, hv]⟩

theorem answer_sameView (c : ChanNo) {r r' : Channel × Ev}
    (hr : Prod.map Channel.view id r = Prod.map Channel.view id r') :
    SameView (.next (s.answer c r)) (.next (s'.answer c r')) := by
  obtain ⟨hview, hev⟩ := Prod.ext_iff.1 hr
  refine ⟨_, _, rfl, rfl, ?_⟩
  rw [State.view_answer, State.view_answer, hv, show r.1.view = r'.1.view from hview, show r.2 = r'.2 from hev]

variable (h : s.Inv) (h' : s'.Inv)
include h h'

theorem dcount_of_view : s.dcount = s'.dcount := by rw [h.dcount_eq, h'.dcount_eq, hv]

theorem chan_len_of_view {c : ChanNo} (hc : c.toNat < s.cfg.nch) : (s.chan c).len = (s'.chan c).len := by
  rw [(h.chan_inv hc).len_eq, (h'.chan_inv (cfg_of_view hv ▸ hc)).len_eq, chan_view_of_view hv]

theorem chan_olen_of_view {c : ChanNo} (hc : c.toNat < s.cfg.nch) : (s.chan c).olen = (s'.chan c).olen := by
  rw [(h.chan_inv hc).olen_eq, (h'.chan_inv (cfg_of_view hv ▸ hc)).olen_eq, chan_view_of_view hv]

/-- The same entries are in use, with equal views and lengths. -/
theorem usedEntry_of_view (i : Nat) : (s.usedEntry i = none ∧ s'.usedEntry i = none) ∨
    ∃ e e', s.usedEntry i = some e ∧ s'.usedEntry i = some e' ∧ e.view = e'.view ∧ e.klen = e'.klen := by
  have hcache : (s.usedEntry i).map Entry.view = (s'.usedEntry i).map Entry.view := by
    rw [State.usedEntry_eq, State.usedEntry_eq, ← List.getElem?_map, ← List.getElem?_map,
      show s.used.map Entry.view = s'.used.map Entry.view from congrArg StateView.cache hv]
  cases hu : s.usedEntry i with
  | none =>
    rw [hu, Option.map_none, eq_comm, Option.map_eq_none_iff] at hcache
    exact .inl ⟨rfl, hcache⟩
  | some e =>
    rw [hu, Option.map_some, eq_comm, Option.map_eq_some_iff] at hcache
    obtain ⟨e', hu', he⟩ := hcache
    rw [State.usedEntry_eq] at hu
    have hu'' := s'.usedEntry_eq i ▸ hu'
    refine .inr ⟨e, e', rfl, hu', he.symm, ?_⟩
    rw [Entry.klen_eq (h.klen_le (List.mem_of_getElem? hu)), Entry.klen_eq (h'.klen_le (List.mem_of_getElem? hu'')), he]

theorem csr_of_view {c : ChanNo} {r : Csr} (hw : (Instr.csrr c r).wellFormed s.cfg = true) : s.csr c r = s'.csr c r := by
  have hcfg := cfg_of_view hv
  cases r with
  | timeoutMs => exact timeoutMs_of_view hv
  | dcountr => exact congrArg (BitVec.ofNat 32) (dcount_of_view hv h h')
  | chLen => exact congrArg (BitVec.ofNat 32) (chan_len_of_view hv h h' (of_decide_eq_true hw))
  | chTlast => exact congrArg ChanView.tlast (chan_view_of_view hv c)
  | capr | dcapr | nchr | markerr | timewr => simp only [State.csr, hcfg]

theorem seenOrRecord_view (c : ChanNo) (key : List Byte) :
    (s.seenOrRecord c key).view = (s'.seenOrRecord c key).view := by
  have hpairs : s.pairs = s'.pairs := by rw [State.pairs_eq, State.pairs_eq, hv]
  have hdcount := dcount_of_view hv h h'
  have htime := time_of_view hv
  have hn : s.cfg.n = s'.cfg.n := congrArg Config.n (cfg_of_view hv)
  by_cases hm : (c, key) ∈ s.pairs
  · obtain ⟨i, hi⟩ := List.mem_iff_getElem?.1 hm
    rw [h.seenOrRecord_of_present hi, h'.seenOrRecord_of_present (hpairs ▸ hi), State.view_respond, State.view_respond,
      State.view_refreshEntry, State.view_refreshEntry, hv, htime]
  · have hm' : (c, key) ∉ s'.pairs := hpairs ▸ hm
    by_cases hlt : s.dcount < s.cfg.n
    · have hlt' : s'.dcount < s'.cfg.n := hdcount ▸ hn ▸ hlt
      rw [h.seenOrRecord_of_absent_of_lt hm hlt, h'.seenOrRecord_of_absent_of_lt hm' hlt', State.view_respond,
        State.view_respond, h.view_insertEntry c key hlt, h'.view_insertEntry c key hlt', hv, htime, hdcount]
    · have hfull : s.dcount = s.cfg.n := Nat.le_antisymm h.dcount_le (Nat.le_of_not_lt hlt)
      have hfull' : s'.dcount = s'.cfg.n := hdcount ▸ hn ▸ hfull
      rw [h.seenOrRecord_of_absent_of_full hm hfull, h'.seenOrRecord_of_absent_of_full hm' hfull', State.view_respond,
        State.view_respond, h.view_evictEntry c key hfull, h'.view_evictEntry c key hfull', hv, htime, hn]

/-- A readout answers with the same value. -/
theorem exec_readOnly_sameView {i : Instr} (hr : readOnly i = true) (hw : i.wellFormed s.cfg = true) :
    SameView (exec i s) (exec i s') := by
  have hw' : i.wellFormed s'.cfg = true := cfg_of_view hv ▸ hw
  cases i with
  | nop => exact respond_sameView hv _ _
  | dmeta j =>
    rcases usedEntry_of_view hv h h' j.toNat with ⟨hu, hu'⟩ | ⟨e, e', hu, hu', hview, hklen⟩
    · rw [exec_dmeta_of_unused hu, exec_dmeta_of_unused hu']
      exact respond_sameView hv _ _
    · rw [exec_dmeta_of_used hu, exec_dmeta_of_used hu', hklen, show e.snd = e'.snd from congrArg EntryView.snd hview]
      exact respond_sameView hv _ _
  | dtime j =>
    rcases usedEntry_of_view hv h h' j.toNat with ⟨hu, hu'⟩ | ⟨e, e', hu, hu', hview, -⟩
    · rw [exec_dtime_of_unused hu, exec_dtime_of_unused hu']
      exact respond_sameView hv _ _
    · rw [exec_dtime_of_used hu, exec_dtime_of_used hu', show e.ts = e'.ts from congrArg EntryView.ts hview]
      exact respond_sameView hv _ _
  | dbyte j k =>
    rcases usedEntry_of_view hv h h' j.toNat with ⟨hu, hu'⟩ | ⟨e, e', hu, hu', hview, -⟩
    · rw [exec_dbyte_of_unused hu, exec_dbyte_of_unused hu']
      exact respond_sameView hv _ _
    · rw [exec_dbyte_of_used hu, exec_dbyte_of_used hu', Entry.keyByte_eq, Entry.keyByte_eq,
        show e.frame = e'.frame from congrArg EntryView.frame hview]
      exact respond_sameView hv _ _
  | fmeta c =>
    rw [exec_fmeta (of_decide_eq_true hw), exec_fmeta (of_decide_eq_true hw'),
      chan_olen_of_view hv h h' (of_decide_eq_true hw),
      show (s.chan c).ovalid = (s'.chan c).ovalid from congrArg ChanView.ovalid (chan_view_of_view hv c)]
    exact respond_sameView hv _ _
  | fbyte c k =>
    rw [exec_fbyte (of_decide_eq_true hw), exec_fbyte (of_decide_eq_true hw'), Channel.frameByte_eq,
      Channel.frameByte_eq, show (s.chan c).frame = _ from congrArg ChanView.frame (chan_view_of_view hv c)]
    exact respond_sameView hv _ _
  | bbyte c k =>
    rw [exec_bbyte (of_decide_eq_true hw), exec_bbyte (of_decide_eq_true hw'), Channel.bufByte_eq,
      Channel.bufByte_eq, show (s.chan c).content = _ from congrArg ChanView.content (chan_view_of_view hv c)]
    exact respond_sameView hv _ _
  | csrr c r =>
    rw [exec_csrr_of_readable ((csrReadable_eq_wellFormed _ _ _).trans hw),
      exec_csrr_of_readable ((csrReadable_eq_wellFormed _ _ _).trans hw'), csr_of_view hv h h' hw]
    exact respond_sameView hv _ _
  | feed | tick | dedup | csrw => cases hr

/-- Every command answers two states with equal views alike. -/
theorem exec_sameView (i : Instr) : SameView (exec i s) (exec i s') := by
  have hcfg := cfg_of_view hv
  cases hw : i.wellFormed s.cfg with
  | false =>
    rw [exec_of_not_wellFormed hw, exec_of_not_wellFormed (hcfg ▸ hw)]
    exact respond_sameView hv _ _
  | true =>
    have hw' : i.wellFormed s'.cfg = true := hcfg ▸ hw
    cases i with
    | feed c b =>
      have hc := of_decide_eq_true hw
      have hc' := of_decide_eq_true hw'
      rw [exec_feed hc, exec_feed hc', ← hcfg, ← timeoutMs_of_view hv, ← time_of_view hv]
      exact answer_sameView hv c (Channel.feed_view (chan_view_of_view hv c) (h.chan_inv hc)
        (hcfg ▸ h'.chan_inv hc') _ _ h.cfg_ok s.time_lt b)
    | tick c =>
      have hc := of_decide_eq_true hw
      have hc' := of_decide_eq_true hw'
      rw [exec_tick hc, exec_tick hc', ← hcfg, ← timeoutMs_of_view hv, ← time_of_view hv]
      exact answer_sameView hv c (Channel.timeoutTest_view (chan_view_of_view hv c) (h.chan_inv hc)
        (hcfg ▸ h'.chan_inv hc') _ _)
    | dedup c =>
      have hc := of_decide_eq_true hw
      have hc' := of_decide_eq_true hw'
      have hovalid : (s.chan c).ovalid = (s'.chan c).ovalid := congrArg ChanView.ovalid (chan_view_of_view hv c)
      cases hval : (s.chan c).ovalid with
      | false =>
        rw [dedupWithoutAFrameChangesNothing s c hc hval, dedupWithoutAFrameChangesNothing s' c hc' (hovalid ▸ hval)]
        exact respond_sameView hv _ _
      | true =>
        rw [exec_dedup_of_frame hc hval, exec_dedup_of_frame hc' (hovalid ▸ hval),
          show (s.chan c).frame = _ from congrArg ChanView.frame (chan_view_of_view hv c)]
        exact ⟨_, _, rfl, rfl, seenOrRecord_view hv h h' c _⟩
    | csrw c r =>
      obtain ⟨rfl, rfl⟩ := (wellFormed_csrw_iff _ _ _).1 hw
      have hwrite : truncTime s.cfg s.inp.wdata = truncTime s'.cfg s'.inp.wdata := by
        rw [hcfg, show s.inp = s'.inp from congrArg StateView.inp hv]
      rw [exec_csrw_timeoutMs, exec_csrw_timeoutMs, hwrite]
      refine ⟨_, _, rfl, rfl, ?_⟩
      exact congrArg (fun v : StateView => { v with
        timeoutMs := truncTime s'.cfg s'.inp.wdata, ev := evNone, rdata := 0#32 }) hv
    | _ => exact exec_readOnly_sameView hv h h' rfl hw

/-- Every step takes two states with equal views to states with equal views. -/
theorem step_sameView : SameView (step s) (step s') := by
  have hqueue : s.queue = s'.queue := congrArg StateView.queue hv
  have hcfg := cfg_of_view hv
  cases hq : s.queue with
  | nil =>
    rw [step_of_idle hq, step_of_idle (hqueue ▸ hq)]
    exact ⟨_, _, rfl, rfl, hv⟩
  | cons p rest =>
    have hq' := hqueue ▸ hq
    have hview : State.view { s with inp := p, queue := rest } = State.view { s' with inp := p, queue := rest } :=
      congrArg (fun v : StateView => { v with inp := p, queue := rest }) hv
    cases hr : p.rst with
    | true =>
      rw [step_of_rst hq hr, step_of_rst hq' hr]
      exact ⟨_, _, rfl, rfl, by simp only [State.applyReset, hcfg]⟩
    | false =>
      cases hd : decode s.cfg p.cmd with
      | ok i =>
        rw [step_of_decode hq hr hd, step_of_decode hq' hr (hcfg ▸ hd)]
        exact exec_sameView hview (h.withPorts ..) (h'.withPorts ..) i
      | error e =>
        rw [step_of_decode_error hq hr hd, step_of_decode_error hq' hr (hcfg ▸ hd)]
        exact respond_sameView hview _ _

end

end Sys2Proof.Machine

open Sys2Proof Sys2Proof.Machine

/-- Settles O17: every update acts on the views. -/
theorem staleBytesAreInvisible : Obligations.StaleBytesAreInvisible :=
  fun _ _ h h' hv => step_sameView hv h h'

end

section
/-!
Sums and times (spec/40_checksum.md, the derived laws; spec/00_scope.md R15): the byte sum of a string taken apart, the difference of
two TIME_W-bit times, and the three statements that rest on them.
-/

namespace Sys2Proof.Machine

theorem byteSum_append (bs cs : List Byte) : byteSum (bs ++ cs) = byteSum bs + byteSum cs := by
  simp [byteSum]

theorem byteSum_cons (b : Byte) (bs : List Byte) : byteSum (b :: bs) = b.toNat + byteSum bs := by
  simp [byteSum]

theorem byteSum_perm {bs cs : List Byte} (h : bs.Perm cs) : byteSum bs = byteSum cs := (h.map _).sum_nat

/-- The byte that brings the sum to 0 is `compute`'s (R100, R101). -/
theorem sum8_concat_eq_zero_iff (bs : List Byte) (c : Byte) : sum8 (bs ++ [c]) = 0 ↔ c = compute bs := by
  rw [← BitVec.toNat_inj, toNat_compute, sum8, sum8, byteSum_append, byteSum_cons, show byteSum [] = 0 from rfl]
  have hc := c.isLt
  omega

/-- Two strings that differ in one byte are not both valid: the two bytes would agree mod 256. -/
theorem eq_of_sum8_eq_zero {bs cs : List Byte} {x y : Byte} (hx : sum8 (bs ++ x :: cs) = 0)
    (hy : sum8 (bs ++ y :: cs) = 0) : x = y := by
  rw [sum8, byteSum_append, byteSum_cons] at hx hy
  have hxlt := x.isLt
  have hylt := y.isLt
  apply BitVec.eq_of_toNat_eq
  omega

/-- The 32-bit difference taken mod 2^TIME_W is the difference of the times, with one 2^TIME_W added when it wraps (R15). -/
theorem elapsed_eq {cfg : Config} {now t : Time} (hle : cfg.timeW ≤ 32) (hnow : now.toNat < 2 ^ cfg.timeW)
    (ht : t.toNat < 2 ^ cfg.timeW) : elapsed cfg now t =
      if t.toNat ≤ now.toNat then now.toNat - t.toNat else now.toNat + 2 ^ cfg.timeW - t.toNat := by
  have hdvd : 2 ^ cfg.timeW ∣ 2 ^ 32 := pow_dvd_pow 2 hle
  rw [elapsed, BitVec.toNat_sub, Nat.mod_mod_of_dvd _ hdvd]
  obtain ⟨k, hk⟩ := hdvd
  have hpos : 0 < k := Nat.pos_of_ne_zero (by rintro rfl; simp at hk)
  obtain ⟨j, rfl⟩ := Nat.exists_eq_succ_of_ne_zero hpos.ne'
  rw [hk, Nat.mul_succ]
  split
  · rw [show 2 ^ cfg.timeW * j + 2 ^ cfg.timeW - t.toNat + now.toNat =
      now.toNat - t.toNat + 2 ^ cfg.timeW * (j + 1) by rw [Nat.mul_succ]; omega, Nat.add_mul_mod_self_left]
    exact Nat.mod_eq_of_lt (by omega)
  · rw [show 2 ^ cfg.timeW * j + 2 ^ cfg.timeW - t.toNat + now.toNat =
      now.toNat + 2 ^ cfg.timeW - t.toNat + 2 ^ cfg.timeW * j by omega, Nat.add_mul_mod_self_left]
    exact Nat.mod_eq_of_lt (by omega)

end Sys2Proof.Machine

open Sys2Proof Sys2Proof.Machine

/-- Settles O23: the sum mod 256 determines the last byte. -/
theorem exactlyTheComputedByteValidates : Obligations.ExactlyTheComputedByteValidates :=
  fun bs c => (validate_eq_true_iff _).trans (sum8_concat_eq_zero_iff bs c)

/-- Settles O24: the sum is mod 256, which tells two bytes apart and adds in any order. -/
theorem checksumDetectsOneByteNotOrder : Obligations.ChecksumDetectsOneByteNotOrder := by
  refine ⟨fun bs cs x y hne hx => ?_, fun bs cs hperm => ?_⟩
  · rw [← Bool.not_eq_true, validate_eq_true_iff]
    exact fun hy => hne (eq_of_sum8_eq_zero ((validate_eq_true_iff _).1 hx) hy)
  · rw [validate, validate, sum8, sum8, byteSum_perm hperm]

/-- Settles O25: the timeout test compares TIMEOUT_MS with that difference. -/
theorem timeoutIsStrictAcrossTheWrap : Obligations.TimeoutIsStrictAcrossTheWrap := by
  refine fun cfg now t hok hnow ht => ⟨elapsed_eq hok.timeW_le hnow ht, ?_⟩
  rintro timeoutMs ch rfl
  exact ch.timedOut_iff cfg timeoutMs now

end

section
/-!
What commands leave alone (spec/10_state.md R24, R26, spec/41_assembler.md R121 to R135, spec/70_reset_and_hazards.md R241): which
commands write a channel and how, the length and the output frame of a channel fed or tested, a FEED after a discard, and the
statements that rest on them.
-/

namespace Sys2Proof.Machine

/-! ## Length and output frame of a channel fed or tested -/

/-- The output holding register (R26). -/
def Channel.output (ch : Channel) : List Byte × Nat × Bool := (ch.oframe, ch.olen, ch.ovalid)

section
variable (cfg : Config) (timeoutMs now : Time) (b : Byte) (ch : Channel)

theorem Channel.timeoutTest_output : (ch.timeoutTest cfg timeoutMs now).1.output = ch.output := by
  rcases ch.timeoutTest_cases cfg timeoutMs now with ⟨-, he⟩ | ⟨-, he⟩ <;> exact congrArg (Channel.output ·.1) he

theorem Channel.timeoutTest_len_le : (ch.timeoutTest cfg timeoutMs now).1.len ≤ ch.len := by
  rcases ch.timeoutTest_cases cfg timeoutMs now with ⟨-, he⟩ | ⟨-, he⟩ <;> rw [he]
  exact Nat.zero_le _

theorem Channel.stamped_output : (ch.stamped cfg timeoutMs now).output = ch.output :=
  ch.timeoutTest_output cfg timeoutMs now

theorem Channel.stamped_len_le : (ch.stamped cfg timeoutMs now).len ≤ ch.len :=
  ch.timeoutTest_len_le cfg timeoutMs now

theorem Channel.settle_len_le (ev : Ev) : (ch.settle cfg ev).1.len ≤ ch.len := by
  rcases ch.settle_cases cfg ev with ⟨-, -, he⟩ | ⟨-, -, he⟩ | ⟨-, -, he⟩ | ⟨-, -, he⟩ <;> rw [he]
  all_goals exact Nat.zero_le _

/-- A FEED adds at most one byte. -/
theorem Channel.feed_len_le : (ch.feed cfg timeoutMs now b).1.len ≤ ch.len + 1 := by
  have hst := ch.stamped_len_le cfg timeoutMs now
  rcases ch.feed_cases cfg timeoutMs now b with ⟨-, -, he⟩ | ⟨-, he⟩ <;> rw [he]
  · exact hst.trans (Nat.le_succ _)
  · exact (Channel.settle_len_le cfg _ _).trans (Nat.succ_le_succ hst)

/-- A FEED leaves the output frame or emits one. -/
theorem Channel.feed_output_cases : (ch.feed cfg timeoutMs now b).1.output = ch.output ∨
    ((ch.feed cfg timeoutMs now b).2.getLsbD 0 = true ∧ (ch.feed cfg timeoutMs now b).1.ovalid = true) := by
  have hst := ch.stamped_output cfg timeoutMs now
  rcases ch.feed_cases cfg timeoutMs now b with ⟨-, -, he⟩ | ⟨-, he⟩ <;> rw [he]
  · exact .inl hst
  · rcases Channel.settle_cases cfg ((ch.stamped cfg timeoutMs now).append b) (ch.timeoutTest cfg timeoutMs now).2 with
      ⟨-, -, hs⟩ | ⟨-, -, hs⟩ | ⟨-, -, hs⟩ | ⟨-, -, hs⟩ <;> rw [hs]
    · exact .inr ⟨by rw [getLsbD_raise]; exact Bool.or_true _, rfl⟩
    all_goals exact .inl hst

end

/-! ## A FEED after a discard -/

theorem raise_right_comm (ev x y : Ev) : raise (raise ev x) y = raise (raise ev y) x := by
  simp only [raise, BitVec.or_assoc, BitVec.or_comm x]

section
variable {cfg : Config} {ch : Channel}

/-- Settling adds its event to those raised before. -/
theorem Channel.settle_raise (ev x : Ev) :
    ch.settle cfg (raise ev x) = ((ch.settle cfg ev).1, raise (ch.settle cfg ev).2 x) := by
  by_cases hc : ch.complete = true
  · by_cases hs : sum8 ch.content = 0
    · rw [Channel.settle_of_valid hc hs, Channel.settle_of_valid hc hs, raise_right_comm]
    · rw [Channel.settle_of_bad_sum hc hs, Channel.settle_of_bad_sum hc hs, raise_right_comm]
  · by_cases hl : ch.len = cfg.cap
    · rw [Channel.settle_of_full hc hl, Channel.settle_of_full hc hl, raise_right_comm]
    · rw [Channel.settle_of_in_progress hc hl, Channel.settle_of_in_progress hc hl]

/-- FEED on a timed-out channel is FEED on the channel discarded, with EV_TIMEOUT. -/
theorem Channel.feed_of_timedOut {timeoutMs now : Time} (ht : ch.timedOut cfg timeoutMs now = true) (b : Byte) :
    ch.feed cfg timeoutMs now b =
      ((ch.discard.feed cfg timeoutMs now b).1, raise (ch.discard.feed cfg timeoutMs now b).2 evTimeout) := by
  have hnot : ch.discard.timedOut cfg timeoutMs now = false := Channel.timedOut_of_empty rfl
  have hst : ch.stamped cfg timeoutMs now = ch.discard.stamped cfg timeoutMs now := by
    rw [Channel.stamped_of_timedOut ht, Channel.stamped_of_not hnot]
    rfl
  have h0 : (ch.discard.stamped cfg timeoutMs now).len = 0 := by rw [Channel.stamped_of_not hnot]; rfl
  by_cases hb : b = cfg.marker0
  · rw [Channel.feed_of_appended (.inr hb), Channel.feed_of_appended (.inr hb), hst,
      Channel.timeoutTest_of_timedOut ht, Channel.timeoutTest_of_not hnot, ← Channel.settle_raise, raise_none]
  · rw [Channel.feed_of_dropped (hst ▸ h0) hb, Channel.feed_of_dropped h0 hb, hst,
      Channel.timeoutTest_of_timedOut ht, Channel.timeoutTest_of_not hnot]
    exact congrArg _ (by decide : raise evTimeout evDrop = raise (raise evNone evDrop) evTimeout)

end

/-! ## Which commands write a channel -/

section
variable {s t : State} {i : Instr}

/-- A write of a channel past the list's end changes nothing. -/
theorem State.chan_setChan_cases (s : State) (c d : ChanNo) (ch : Channel) :
    (s.setChan c ch).chan d = s.chan d ∨ (d = c ∧ (s.setChan c ch).chan d = ch) := by
  by_cases hd : d = c
  · subst hd
    by_cases hlt : d.toNat < s.chans.length
    · exact .inr ⟨rfl, s.chan_setChan_same d ch hlt⟩
    · exact .inl (by rw [State.chan, State.setChan_chans, List.set_eq_of_length_le (Nat.le_of_not_lt hlt)]; rfl)
  · exact .inl (s.chan_setChan_other c d ch hd)

/-- A channel that holds bytes is one of the list. -/
theorem State.chan_lt_of_len_pos {c : ChanNo} (h : 0 < (s.chan c).len) : c.toNat < s.chans.length := by
  by_contra hge
  rw [State.chan, List.getD_eq_default _ _ (Nat.le_of_not_lt hge)] at h
  exact Nat.lt_irrefl 0 h

/-- A command leaves a channel as it is, or is a FEED or TICK on it. -/
theorem exec_chan_cases (h : exec i s = .next t) (d : ChanNo) :
    t.chan d = s.chan d ∨
    (∃ b, i = .feed d b ∧ t.chan d = ((s.chan d).feed s.cfg s.timeoutMs s.time b).1 ∧
      t.ev = ((s.chan d).feed s.cfg s.timeoutMs s.time b).2) ∨
    (i = .tick d ∧ t.chan d = ((s.chan d).timeoutTest s.cfg s.timeoutMs s.time).1) := by
  rcases exec_next_cases h with
    rfl | ⟨-, v, rfl⟩ | ⟨c, b, rfl, -, rfl⟩ | ⟨c, rfl, -, rfl⟩ | ⟨c, -, -, ⟨-, rfl⟩ | ⟨-, rfl⟩⟩ | ⟨-, rfl⟩
  · exact .inl rfl
  · exact .inl rfl
  · rcases s.chan_setChan_cases c d ((s.chan c).feed s.cfg s.timeoutMs s.time b).1 with he | ⟨rfl, he⟩
    · exact .inl he
    · exact .inr (.inl ⟨b, rfl, he, rfl⟩)
  · rcases s.chan_setChan_cases c d ((s.chan c).timeoutTest s.cfg s.timeoutMs s.time).1 with he | ⟨rfl, he⟩
    · exact .inl he
    · exact .inr (.inr ⟨rfl, he⟩)
  · exact .inl rfl
  · exact .inl (s.seenOrRecord_chan c _ d)
  · exact .inl rfl

/-- A command that raises EV_FRAME is a FEED on a channel that exists. -/
theorem exec_frame (h : exec i s = .next t) (hev : t.ev.getLsbD 0 = true) :
    ∃ c b, i = .feed c b ∧ c.toNat < s.cfg.nch := by
  rcases exec_next_cases h with
    rfl | ⟨-, v, rfl⟩ | ⟨c, b, rfl, hc, -⟩ | ⟨c, rfl, hc, rfl⟩ | ⟨c, rfl, -, ⟨-, rfl⟩ | ⟨-, rfl⟩⟩ | ⟨-, rfl⟩
  case inr.inr.inl => exact ⟨c, b, rfl, hc⟩
  case inr.inr.inr.inl =>
    rw [State.respond_ev, Channel.timeoutTest_not_frame] at hev
    cases hev
  case inr.inr.inr.inr.inl.inr =>
    have hmem := s.seenOrRecord_ev_mem c (s.chan c).frame
    simp only [List.mem_cons, List.not_mem_nil, or_false] at hmem
    rcases hmem with he | he | he <;> rw [he] at hev <;> cases hev
  all_goals simp [evIllegal, evNone, evNoframe] at hev

theorem exec_feed_chan_exists {c : ChanNo} {b : Byte} (h : exec (.feed c b) s = .next t)
    (hev : t.ev.getLsbD 0 = true) : c.toNat < s.cfg.nch := by
  obtain ⟨d, x, he, hd⟩ := exec_frame h hev
  cases he
  exact hd

/-- A FEED on a channel replaces it alone. -/
theorem exec_feed_chan_other {c d : ChanNo} {b : Byte} (h : exec (.feed c b) s = .next t) (hd : d ≠ c) :
    t.chan d = s.chan d := by
  rcases exec_chan_cases h d with he | ⟨x, hi, -⟩ | ⟨hi, -⟩
  · exact he
  · cases hi
    exact absurd rfl hd
  · cases hi

/-- A command keeps the output frame of every channel that it does not emit on. -/
theorem exec_output (h : exec i s = .next t) (hev : t.ev.getLsbD 0 = false) (d : ChanNo) :
    (t.chan d).output = (s.chan d).output := by
  rcases exec_chan_cases h d with he | ⟨b, -, he, hfeed⟩ | ⟨-, he⟩
  · rw [he]
  · rcases (s.chan d).feed_output_cases s.cfg s.timeoutMs s.time b with hout | ⟨hframe, -⟩
    · rw [he, hout]
    · rw [← hfeed, hev] at hframe
      cases hframe
  · rw [he, Channel.timeoutTest_output]

theorem exec_ovalid (h : exec i s = .next t) {d : ChanNo} (hv : (s.chan d).ovalid = true) :
    (t.chan d).ovalid = true := by
  have hkeep : ∀ {ch : Channel}, ch.output = (s.chan d).output → ch.ovalid = true :=
    fun ho => (congrArg (·.2.2) ho).trans hv
  rcases exec_chan_cases h d with he | ⟨b, -, he, -⟩ | ⟨-, he⟩ <;> rw [he]
  · exact hv
  · exact ((s.chan d).feed_output_cases s.cfg s.timeoutMs s.time b).elim hkeep And.right
  · exact hkeep (Channel.timeoutTest_output _ _ _ _)

theorem exec_dcount_le (h : exec i s = .next t) : s.dcount ≤ t.dcount := by
  rcases exec_next_cases h with
    rfl | ⟨-, v, rfl⟩ | ⟨c, b, -, -, rfl⟩ | ⟨c, -, -, rfl⟩ | ⟨c, -, -, ⟨-, rfl⟩ | ⟨-, rfl⟩⟩ | ⟨-, rfl⟩
  case inr.inr.inr.inr.inl.inr =>
    unfold State.seenOrRecord
    split
    · exact Nat.le_refl _
    · split
      · exact Nat.le_succ _
      · exact Nat.le_refl _
  all_goals exact Nat.le_refl _

theorem exec_timeoutMs (h : exec i s = .next t) (hne : t.timeoutMs ≠ s.timeoutMs) : i = .csrw 0#4 .timeoutMs := by
  rcases exec_next_cases h with
    rfl | ⟨-, v, rfl⟩ | ⟨c, b, -, -, rfl⟩ | ⟨c, -, -, rfl⟩ | ⟨c, -, -, ⟨-, rfl⟩ | ⟨-, rfl⟩⟩ | ⟨hi, -⟩
  case inr.inr.inr.inr.inr => exact hi
  case inr.inr.inr.inr.inl.inr => exact absurd (s.seenOrRecord_timeoutMs c _) hne
  all_goals exact absurd rfl hne

end

end Sys2Proof.Machine

open Sys2Proof Sys2Proof.Machine

/-- Settles O18: a step without a reset is the illegal response or a command, which keeps these. -/
theorem onlyResetWithdraws : Obligations.OnlyResetWithdraws := by
  intro s t p rest hq hr h
  cases hd : decode s.cfg p.cmd with
  | error e =>
    rw [step_of_decode_error hq hr hd] at h
    cases h
    exact ⟨Nat.le_refl _, fun _ hv => hv, fun hne => absurd rfl hne⟩
  | ok i =>
    rw [step_of_decode hq hr hd] at h
    refine ⟨(exec_dcount_le h :), fun c hv => (exec_ovalid h (d := c) hv :), fun hne => ?_⟩
    rw [← (encodeOfDecodeIsIdentity _ _ _ hd).1, exec_timeoutMs h hne]
    rfl

/-- Settles O19: FEED adds at most one byte and TICK none, and no other command writes the channel. -/
theorem onlyFeedGrowsAndOnlyFeedOrTickEmpties : Obligations.OnlyFeedGrowsAndOnlyFeedOrTickEmpties := by
  intro i s t d h
  rcases exec_chan_cases h d with he | ⟨b, rfl, he, -⟩ | ⟨rfl, he⟩ <;> rw [he]
  · exact ⟨fun hgt => absurd hgt (Nat.lt_irrefl _), fun hne h0 => absurd h0 hne⟩
  · have hle := (s.chan d).feed_len_le s.cfg s.timeoutMs s.time b
    exact ⟨fun hgt => ⟨⟨b, rfl⟩, Nat.le_antisymm hle hgt⟩, fun _ _ => .inl ⟨b, rfl⟩⟩
  · have hle := (s.chan d).timeoutTest_len_le s.cfg s.timeoutMs s.time
    exact ⟨fun hgt => absurd hgt (Nat.not_lt.2 hle), fun _ _ => .inr rfl⟩

/-- Settles O20: without EV_FRAME every output frame stays, and a command that raises it is a FEED, which writes one channel. -/
theorem onlyEmissionWritesTheHoldingRegister : Obligations.OnlyEmissionWritesTheHoldingRegister := by
  intro i s t h
  refine ⟨fun hev d => ?_, fun hev => ?_⟩
  · simpa only [Channel.output, Prod.mk.injEq] using exec_output h hev d
  · obtain ⟨c, b, rfl, -⟩ := exec_frame h hev
    exact ⟨c, b, rfl, fun d hd => exec_feed_chan_other h hd⟩

/-- Settles O27: the appended channel settles as it is. -/
theorem feedAppendsAnyByte : Obligations.FeedAppendsAnyByte := by
  intro s c b hs hc hl ht f hincomplete hfull
  have hi := hs.chan_inv hc
  have hex := exec_feed_of_holding hc hl ht b
  rw [Channel.settle_of_in_progress (mt (hi.fed_complete_iff s.time b).1 hincomplete)
    (fun hcap => hfull ((hi.fed_len s.time b).symm.trans hcap))] at hex
  refine ⟨_, hex, ?_⟩
  rw [State.answer_chan (hs.chan_lt hc)]
  exact ⟨hi.fed_content s.time b, rfl, rfl⟩

/-- Settles O32: TICK is the timeout test. -/
theorem tickAppliesTheTimeout : Obligations.TickAppliesTheTimeout := by
  intro s c hc
  rw [exec_tick hc]
  refine ⟨fun ht => ?_, fun ht => ?_⟩
  · rw [Channel.timeoutTest_of_timedOut ((s.timedOut_iff c).2 ht)]
    rfl
  · rw [Channel.timeoutTest_of_not ((s.timedOut_false_iff c).2 ht), State.answer_self]
    rfl

/-- Settles O33: FEED on a timed-out channel is FEED on the channel as TICK leaves it, with EV_TIMEOUT. -/
theorem tickThenFeedEqualsFeed : Obligations.TickThenFeedEqualsFeed := by
  intro s c b hc ht
  have hto := (s.timedOut_iff c).2 ht
  have htick := exec_tick hc
  rw [Channel.timeoutTest_of_timedOut hto] at htick
  refine ⟨_, _, htick, rfl, exec_feed (s := s.answer c _) hc b, ?_⟩
  rw [exec_feed hc, Channel.feed_of_timedOut hto, State.answer_chan (State.chan_lt_of_len_pos ht.1)]
  simp only [State.answer, List.set_set]
  rfl

/-- Settles O35: the channel that an emission leaves meets its invariant with a valid output frame. -/
theorem emittedFramesAreWellFormed : Obligations.EmittedFramesAreWellFormed := by
  intro s t c b hs h hev
  have hc := exec_feed_chan_exists h hev
  obtain ⟨hl, ht, h3, hle, hsum⟩ := feedEmitsACompleteValidFrame.2 s t c b hs h hev
  obtain ⟨u, hu, -, -, -, -, hvalid, -⟩ := feedEmitsACompleteValidFrame.1 s c b hs hc hl ht h3 hle hsum
  cases hu.symm.trans h
  have hcfg := (exec_keeps_ports h).1
  obtain ⟨hmarker, hlen, hcap, hzero⟩ := ((hs.exec h).chan_inv (hcfg ▸ hc)).valid_frame hvalid
  rw [hcfg] at hmarker hcap
  exact ⟨hmarker, hlen, hlen ▸ Nat.le_add_left 4 _, hcap, hzero⟩

end

section
/-!
FEEDs counted along a run (spec/70_reset_and_hazards.md section 4): runs taken apart, how much one step adds to a channel, and the
statement that rests on them.
-/

namespace Sys2Proof.Machine

variable {s t u : State} {c : ChanNo}

/-! ## Runs -/

theorem run_succ_of_step (hs : step s = .next t) (k : Nat) : run (k + 1) s = run k t := by
  rw [run, hs]

theorem run_add {k : Nat} (h : run k s = .next t) (m : Nat) : run (k + m) s = run m t := by
  induction k generalizing s with
  | zero =>
    cases h
    rw [Nat.zero_add]
  | succ k ih =>
    obtain ⟨t₁, ht₁⟩ := step_answers s
    rw [run_succ_of_step ht₁] at h
    rw [Nat.succ_add, run_succ_of_step ht₁, ih h]

theorem run_succ_of_run {k : Nat} (h : run k s = .next t) (hs : step t = .next u) : run (k + 1) s = .next u :=
  (run_add h 1).trans (run_succ_of_step hs 0)

/-! ## The presentation taken -/

theorem isFeedOf_iff {cfg : Config} {p : HostIn} :
    isFeedOf cfg c p = true ↔ p.rst = false ∧ ∃ b, decode cfg p.cmd = .ok (.feed c b) := by
  unfold isFeedOf
  split
  · rename_i d b hr hd
    simp [hr, hd]
  · rename_i hno
    simp only [Bool.false_eq_true, false_iff, not_and, not_exists]
    exact fun hr b hd => hno c b hr hd

theorem State.feedsNext_iff : s.feedsNext c = true ↔
    ∃ p rest b, s.queue = p :: rest ∧ p.rst = false ∧ decode s.cfg p.cmd = .ok (.feed c b) := by
  rw [State.feedsNext]
  cases hq : s.queue with
  | nil => simp
  | cons p rest => simp [isFeedOf_iff]

theorem step_cfg_queue (h : step s = .next t) : t.cfg = s.cfg ∧ t.queue = s.queue.drop 1 := by
  rcases step_next_cases h with ⟨hq, rfl⟩ | ⟨p, rest, hq, ⟨-, rfl⟩ | ⟨-, i, -, he⟩ | ⟨-, -, rfl⟩⟩ <;> rw [hq]
  · exact ⟨rfl, rfl⟩
  · exact ⟨rfl, rfl⟩
  · obtain ⟨hcfg, -, hqueue⟩ := exec_keeps_ports he
    exact ⟨hcfg, hqueue⟩
  · exact ⟨rfl, rfl⟩

/-! ## What a step adds to a channel -/

/-- One byte if it is a FEED on the channel, none otherwise. -/
theorem step_len_le (h : step s = .next t) (c : ChanNo) :
    (t.chan c).len ≤ (s.chan c).len + if s.feedsNext c then 1 else 0 := by
  rcases step_next_cases h with ⟨-, rfl⟩ | ⟨p, rest, hq, ⟨-, rfl⟩ | ⟨hr, i, hd, he⟩ | ⟨-, -, rfl⟩⟩
  · exact Nat.le_add_right _ _
  · have hreset : (State.applyReset { s with inp := p, queue := rest }).chan c = Channel.reset s.cfg := by
      simp only [State.chan, State.applyReset_chans, List.getD_eq_getElem?_getD, List.getElem?_replicate]
      split <;> rfl
    rw [hreset]
    exact Nat.zero_le _
  · rcases exec_chan_cases he c with hch | ⟨b, rfl, hch, -⟩ | ⟨-, hch⟩ <;> rw [hch]
    · exact Nat.le_add_right _ _
    · rw [if_pos (State.feedsNext_iff.2 ⟨p, rest, b, hq, hr, hd⟩)]
      exact Channel.feed_len_le _ _ _ _ _
    · exact (Channel.timeoutTest_len_le _ _ _ _).trans (Nat.le_add_right _ _)
  · exact Nat.le_add_right _ _

/-- An emission completes a frame of at least four bytes, three of them buffered before, and empties the channel. -/
theorem exec_feed_emission {b : Byte} (h : exec (.feed c b) s = .next t) (hev : t.ev.getLsbD 0 = true) :
    3 ≤ (s.chan c).len ∧ (t.chan c).len = 0 := by
  rw [exec_feed (exec_feed_chan_exists h hev)] at h
  cases h
  obtain ⟨hl, ht, hcomplete, hsum⟩ := Channel.fed_of_feed_frame hev
  rw [State.answer_chan (State.chan_lt_of_len_pos hl), Channel.feed_of_holding hl ht,
    Channel.settle_of_valid hcomplete hsum]
  obtain ⟨-, hle⟩ := (Channel.complete_iff_buf _).1 hcomplete
  exact ⟨Nat.le_of_succ_le_succ ((Nat.le_add_left 4 _).trans hle), rfl⟩

theorem Emission.len (h : Emission c s t) : 3 ≤ (s.chan c).len ∧ (t.chan c).len = 0 := by
  obtain ⟨p, rest, b, hq, hr, hd⟩ := State.feedsNext_iff.1 h.feeds
  have he := h.answers
  rw [step_of_decode hq hr hd] at he
  exact (exec_feed_emission he h.emits :)

/-! ## What a run adds to a channel -/

theorem countP_take_succ {α : Type} (p : α → Bool) (l : List α) (k : Nat) :
    (l.take (k + 1)).countP p = (if l.head?.any p then 1 else 0) + ((l.drop 1).take k).countP p := by
  cases l with
  | nil => simp
  | cons a l =>
    rw [List.take_succ_cons, List.countP_cons, Nat.add_comm]
    rfl

/-- A run of k steps adds at most one byte for each FEED on the channel among the first k presentations. -/
theorem run_len_le {k : Nat} (h : run k s = .next t) : t.cfg = s.cfg ∧ t.queue = s.queue.drop k ∧
    (t.chan c).len ≤ (s.chan c).len + (s.queue.take k).countP (isFeedOf s.cfg c) := by
  induction k generalizing s with
  | zero =>
    cases h
    exact ⟨rfl, rfl, Nat.le_add_right _ _⟩
  | succ k ih =>
    obtain ⟨s₁, hs₁⟩ := step_answers s
    rw [run_succ_of_step hs₁] at h
    obtain ⟨hcfg, hqueue⟩ := step_cfg_queue hs₁
    obtain ⟨hcfg', hqueue', hlen'⟩ := ih h
    have hlen := step_len_le hs₁ c
    rw [hcfg, hqueue] at hlen'
    refine ⟨hcfg'.trans hcfg, by rw [hqueue', hqueue, List.drop_drop, Nat.add_comm], ?_⟩
    rw [countP_take_succ, ← State.feedsNext]
    omega

end Sys2Proof.Machine

open Sys2Proof Sys2Proof.Machine

/-- Settles O36: between two emissions a channel grows from none to at least three bytes, one for each FEED, and the second emission
is a FEED too. -/
theorem fourFeedsBetweenEmissions : Obligations.FourFeedsBetweenEmissions := by
  refine ⟨fun s t c b _ _ h => ⟨?_, fun hev => exec_feed_emission h hev⟩, fun s t c h hno => ?_, ?_⟩
  · rcases exec_chan_cases h c with he | ⟨x, -, he, -⟩ | ⟨hi, -⟩
    · rw [he]
      exact Nat.le_succ _
    · rw [he]
      exact Channel.feed_len_le _ _ _ _ _
    · cases hi
  · simpa [hno] using step_len_le h c
  · intro s t u v c k _ hfirst hrun hsecond
    obtain ⟨-, hempty⟩ := hfirst.len
    obtain ⟨hthree, -⟩ := hsecond.len
    obtain ⟨hcfg, -⟩ := step_cfg_queue hfirst.answers
    obtain ⟨hcfg', hqueue, hlen⟩ := run_len_le (c := c) hrun
    have hlast : ((t.queue.drop k).take 1).countP (isFeedOf s.cfg c) = 1 := by
      have hnext := hsecond.feeds
      rw [State.feedsNext, hqueue, hcfg', hcfg] at hnext
      rw [countP_take_succ, if_pos hnext]
      rfl
    rw [List.take_add, List.countP_append, hlast]
    rw [hcfg] at hlen
    omega

end

section
/-!
Frames fed byte by byte (spec/41_assembler.md R124 to R134, spec/95_test_vectors.md section 1): what a run of FEEDs without a gap has
done after its first k bytes, up to the byte that completes or fills the buffer, and the three statements that rest on it.
-/

namespace Sys2Proof.Machine

/-! ## Candidates -/

/-- Bytes of which none before the last completes a frame or fills the buffer. -/
structure Candidate (cfg : Config) (f : List Byte) : Prop where
  marker : f.getD 0 0#8 = cfg.marker0
  length_le : f.length ≤ cfg.cap
  length_le_frame : f.length ≤ (f.getD 2 0#8).toNat + 4

theorem ValidFrame.candidate {cfg : Config} {f : List Byte} (h : ValidFrame cfg f) : Candidate cfg f :=
  ⟨h.marker, h.length_le, h.length_eq.le⟩

theorem ValidFrame.four_le {cfg : Config} {f : List Byte} (h : ValidFrame cfg f) : 4 ≤ f.length :=
  h.length_eq ▸ Nat.le_add_left 4 _

/-! ## The first k bytes received -/

/-- Channel `c` as `ch`, and the state `t`, once the first `k` bytes of `xs` have been fed to `s`, none of them settled by an emission
or a discard; `rest` comes after `xs`. -/
structure Received (c : ChanNo) (s : State) (xs : List Arrival) (rest : List HostIn) (k : Nat) (ch : Channel)
    (t : State) : Prop where
  inv : t.Inv
  cfg : t.cfg = s.cfg
  timeoutMs : t.timeoutMs = s.timeoutMs
  queue : t.queue = feedsOf c (xs.drop k) ++ rest
  content : ch.content = (xs.map Arrival.byte).take k
  len : ch.len = k
  tlast : ∀ (j : Nat) (hj : j < xs.length), j + 1 = k → ch.tlast = truncTime s.cfg xs[j].now
  output : ch.output = (s.chan c).output

section
variable {c : ChanNo} {s t : State} {xs : List Arrival} {rest : List HostIn} {k : Nat} {ch : Channel}

theorem Received.start (hs : s.Inv) (hl : (s.chan c).len = 0) (hq : s.queue = feedsOf c xs ++ rest) :
    Received c s xs rest 0 (s.chan c) s where
  inv := hs
  cfg := rfl
  timeoutMs := rfl
  queue := hq
  content := by rw [Channel.content, hl, List.take_zero, List.take_zero]
  len := hl
  tlast := by
    intro j _ hj
    cases hj
  output := rfl

/-- The length byte is the third byte fed. -/
theorem Received.complete_iff (h : Received c s xs rest k ch t) (hk : k ≤ xs.length) : ch.complete = true ↔
    3 ≤ k ∧ ((xs.map Arrival.byte).getD 2 0#8).toNat + 4 ≤ k := by
  have hlength : ch.content.length = k := by
    rw [h.content, List.length_take, List.length_map]
    omega
  have hle : ch.len ≤ ch.buf.length := by
    have htake := hlength
    rw [Channel.content, List.length_take, h.len] at htake
    rw [h.len]
    omega
  rw [Channel.complete_iff _ hle, hlength]
  refine and_congr_right fun h3 => ?_
  rw [h.content, List.getD_eq_getElem?_getD, List.getElem?_take_of_lt h3, ← List.getD_eq_getElem?_getD]

/-- No gap, as each byte after the first finds it. -/
theorem NoGap.elapsed_le {cfg : Config} {timeoutMs : Time} (h : NoGap cfg timeoutMs xs) {j : Nat}
    (hj : j + 1 < xs.length) :
    elapsed cfg (truncTime cfg xs[j + 1].now) (truncTime cfg xs[j].now) ≤ timeoutMs.toNat := by
  induction xs generalizing j with
  | nil => cases hj
  | cons a xs ih =>
    cases xs with
    | nil => exact absurd hj (Nat.not_lt.2 (Nat.le_add_left 1 j))
    | cons b xs =>
      obtain ⟨hab, hrest⟩ := h
      cases j with
      | zero => exact hab
      | succ j => exact ih hrest (Nat.lt_of_succ_lt_succ hj)

/-- FEED on a channel that did not time out appends a byte that follows others or is MARKER0, and settles. -/
theorem Channel.feed_of_kept {cfg : Config} {timeoutMs now : Time} {b : Byte}
    (ht : ch.timedOut cfg timeoutMs now = false) (hb : ch.len ≠ 0 ∨ b = cfg.marker0) :
    ch.feed cfg timeoutMs now b = (ch.fed now b).settle cfg evNone := by
  have hst := Channel.stamped_of_not ht
  rw [Channel.feed_of_appended (by rw [hst]; exact hb), hst, Channel.timeoutTest_of_not ht]
  rfl

/-- The FEED that hands one byte to a channel, as `feedsOf` presents it. -/
def feedIn (c : ChanNo) (a : Arrival) : HostIn :=
  { cmd := encode (.feed c a.byte), now := a.now, wdata := a.wdata, rst := false }

theorem feedsOf_cons (c : ChanNo) (a : Arrival) (xs : List Arrival) :
    feedsOf c (a :: xs) = feedIn c a :: feedsOf c xs := rfl

theorem step_feedIn (hc : c.toNat < s.cfg.nch) {a : Arrival} {q : List HostIn} (hq : s.queue = feedIn c a :: q) :
    step s = .next (State.answer { s with inp := feedIn c a, queue := q } c
      ((s.chan c).feed s.cfg s.timeoutMs (truncTime s.cfg a.now) a.byte)) := by
  rw [step_of_decode hq rfl (decodeOfEncodeIsIdentity s.cfg (.feed c a.byte) (decide_eq_true hc))]
  exact exec_feed (s := { s with inp := feedIn c a, queue := q }) hc a.byte

section
variable (hc : c.toNat < s.cfg.nch) (hmarker : (xs.map Arrival.byte).getD 0 0#8 = s.cfg.marker0)
  (hgap : NoGap s.cfg s.timeoutMs xs)
include hc hmarker hgap

/-- The next byte is appended and the channel settles. -/
theorem Received.step (h : Received c s xs rest k (t.chan c) t) (hk : k < xs.length) :
    ∃ u ch, step t = .next u ∧ Received c s xs rest (k + 1) ch u ∧
      u.chan c = (ch.settle s.cfg evNone).1 ∧ u.ev = (ch.settle s.cfg evNone).2 := by
  have hct : c.toNat < t.cfg.nch := h.cfg ▸ hc
  have hq := h.queue
  rw [List.drop_eq_getElem_cons hk, feedsOf_cons] at hq
  have hstep := step_feedIn hct hq
  have hkept : (t.chan c).timedOut t.cfg t.timeoutMs (truncTime t.cfg xs[k].now) = false := by
    rw [h.cfg, h.timeoutMs, ← Bool.not_eq_true, Channel.timedOut_iff]
    rintro ⟨hpos, hlt⟩
    obtain ⟨j, rfl⟩ := Nat.exists_eq_succ_of_ne_zero (h.len ▸ hpos.ne')
    rw [h.tlast j (Nat.lt_of_succ_lt hk) rfl] at hlt
    exact Nat.not_lt.2 (hgap.elapsed_le hk) hlt
  have hbyte : (t.chan c).len ≠ 0 ∨ xs[k].byte = t.cfg.marker0 := by
    rw [h.len, h.cfg, ← hmarker]
    cases k with
    | zero => exact .inr (by simp [hk])
    | succ k => exact .inl (Nat.succ_ne_zero k)
  have hfeed := Channel.feed_of_kept hkept hbyte
  have hi := h.inv.chan_inv hct
  refine ⟨_, (t.chan c).fed (truncTime t.cfg xs[k].now) xs[k].byte, hstep, ?_, ?_, ?_⟩
  · exact {
      inv := h.inv.step hstep
      cfg := h.cfg
      timeoutMs := h.timeoutMs
      queue := rfl
      content := by
        rw [hi.fed_content, h.content, ← List.take_append_getElem (by rwa [List.length_map]), List.getElem_map]
      len := congrArg (· + 1) h.len
      tlast := by
        intro j hj hjk
        cases hjk
        rw [← h.cfg]
        rfl
      output := h.output }
  · exact h.cfg ▸ (State.chan_setChan_same _ c _ (h.inv.chan_lt hct)).trans (congrArg Prod.fst hfeed)
  · exact h.cfg ▸ congrArg Prod.snd hfeed

/-- Before the last byte of a candidate nothing happens but the append. -/
theorem run_received (hcand : Candidate s.cfg (xs.map Arrival.byte)) (hstart : Received c s xs rest 0 (s.chan c) s)
    (hk : k < xs.length) : ∃ t, run k s = .next t ∧ Received c s xs rest k (t.chan c) t ∧ (0 < k → t.ev = evNone) := by
  induction k with
  | zero => exact ⟨s, rfl, hstart, fun h0 => absurd h0 (Nat.lt_irrefl 0)⟩
  | succ k ih =>
    obtain ⟨t, hrun, ht, -⟩ := ih (Nat.lt_of_succ_lt hk)
    obtain ⟨u, ch, hstep, hu, hch, hev⟩ := ht.step hc hmarker hgap (Nat.lt_of_succ_lt hk)
    have hcap := hcand.length_le
    have hframe := hcand.length_le_frame
    rw [List.length_map] at hcap hframe
    have hincomplete : ¬ ch.complete = true := by
      rw [hu.complete_iff hk.le]
      omega
    have hsettle : ch.settle s.cfg evNone = (ch, evNone) :=
      Channel.settle_of_in_progress hincomplete (by rw [hu.len]; omega)
    rw [hsettle] at hch hev
    exact ⟨u, run_succ_of_run hrun hstep, hch ▸ hu, fun _ => hev⟩

/-- At the last byte of a candidate the channel settles with all of its bytes. -/
theorem run_received_last (hcand : Candidate s.cfg (xs.map Arrival.byte))
    (hstart : Received c s xs rest 0 (s.chan c) s) (hpos : 0 < xs.length) :
    ∃ u ch, run xs.length s = .next u ∧ Received c s xs rest xs.length ch u ∧
      u.chan c = (ch.settle s.cfg evNone).1 ∧ u.ev = (ch.settle s.cfg evNone).2 := by
  obtain ⟨k, hk⟩ := Nat.exists_eq_succ_of_ne_zero hpos.ne'
  have hlt : k < xs.length := hk ▸ Nat.lt_succ_self k
  obtain ⟨t, hrun, ht, -⟩ := run_received hc hmarker hgap hcand hstart hlt
  obtain ⟨u, ch, hstep, hu, hch, hev⟩ := ht.step hc hmarker hgap hlt
  rw [hk]
  exact ⟨u, ch, run_succ_of_run hrun hstep, hu, hch, hev⟩

end

/-- All bytes of `xs` stand in the channel. -/
theorem Received.content_all (h : Received c s xs rest xs.length ch t) : ch.content = xs.map Arrival.byte := by
  rw [h.content, List.take_of_length_le (List.length_map _).le]

theorem Received.queue_all (h : Received c s xs rest xs.length ch t) : t.queue = rest := by
  rw [h.queue, List.drop_length]
  rfl

/-- A candidate as long as its length byte says is complete at its last byte. -/
theorem Received.complete (h : Received c s xs rest xs.length ch t) (h4 : 4 ≤ xs.length)
    (hlen : xs.length = ((xs.map Arrival.byte).getD 2 0#8).toNat + 4) : ch.complete = true :=
  (h.complete_iff (Nat.le_refl _)).2 ⟨Nat.le_of_succ_le h4, hlen.ge⟩

/-! ## Whole frames -/

/-- A channel keeps its output frame while its holding register stays. -/
theorem frame_ovalid_of_output {ch ch' : Channel} (h : ch.output = ch'.output) :
    ch.frame = ch'.frame ∧ ch.ovalid = ch'.ovalid := by
  simp only [Channel.output, Prod.mk.injEq] at h
  obtain ⟨hoframe, holen, hovalid⟩ := h
  exact ⟨by rw [Channel.frame, Channel.frame, hoframe, holen], hovalid⟩

section
variable (hc : c.toNat < s.cfg.nch) (hstart : Received c s xs rest 0 (s.chan c) s)
  (hgap : NoGap s.cfg s.timeoutMs xs)
include hc hstart hgap

/-- A valid frame is emitted at its last byte (R126). -/
theorem run_valid_frame (hvalid : ValidFrame s.cfg (xs.map Arrival.byte)) :
    ∃ u, run xs.length s = .next u ∧ u.ev = evFrame ∧ (u.chan c).ovalid = true ∧
      (u.chan c).frame = xs.map Arrival.byte ∧ (u.chan c).len = 0 ∧ u.queue = rest := by
  have h4 : 4 ≤ xs.length := by simpa using hvalid.four_le
  obtain ⟨u, ch, hrun, hu, hch, hev⟩ := run_received_last hc hvalid.marker hgap hvalid.candidate hstart (by omega)
  have hcomplete := hu.complete h4 (by simpa using hvalid.length_eq)
  have hcontent := hu.content_all
  rw [Channel.settle_of_valid hcomplete (hcontent ▸ hvalid.sum_zero), hcontent] at hch hev
  refine ⟨u, hrun, hev, ?_⟩
  rw [hch, Channel.frame_emit]
  exact ⟨rfl, rfl, rfl, hu.queue_all⟩

/-- A candidate that is complete at its last byte, with another sum, is discarded there (R127). -/
theorem run_bad_frame (hcand : Candidate s.cfg (xs.map Arrival.byte)) (h4 : 4 ≤ xs.length)
    (hlen : xs.length = ((xs.map Arrival.byte).getD 2 0#8).toNat + 4) (hsum : sum8 (xs.map Arrival.byte) ≠ 0) :
    ∃ u, run xs.length s = .next u ∧ u.Inv ∧ u.cfg = s.cfg ∧ u.timeoutMs = s.timeoutMs ∧ u.queue = rest ∧
      u.ev = evCsumErr ∧ (u.chan c).len = 0 ∧ (u.chan c).output = (s.chan c).output := by
  obtain ⟨u, ch, hrun, hu, hch, hev⟩ := run_received_last hc hcand.marker hgap hcand hstart (by omega)
  rw [Channel.settle_of_bad_sum (hu.complete h4 hlen) (hu.content_all ▸ hsum)] at hch hev
  refine ⟨u, hrun, hu.inv, hu.cfg, hu.timeoutMs, hu.queue_all, hev, ?_⟩
  rw [hch]
  exact ⟨rfl, hu.output⟩

end

end

/-- Corrupting the last byte of a valid frame leaves what FEED tests before the sum, and changes the sum. -/
theorem ValidFrame.corrupted {cfg : Config} {bs : List Byte} {x y : Byte} (h : ValidFrame cfg (bs ++ [y])) (hne : x ≠ y) :
    Candidate cfg (bs ++ [x]) ∧ (bs ++ [x]).length = ((bs ++ [x]).getD 2 0#8).toNat + 4 ∧ sum8 (bs ++ [x]) ≠ 0 := by
  have h3 : 3 ≤ bs.length := by simpa using h.four_le
  have hget : ∀ {i : Nat} (z : Byte), i < 3 → (bs ++ [z]).getD i 0#8 = bs.getD i 0#8 :=
    fun z hi => List.getD_append _ _ _ _ (Nat.lt_of_lt_of_le hi h3)
  obtain ⟨hmarker, hlen, hcap, hzero⟩ := h
  rw [hget y (by decide)] at hmarker hlen
  rw [List.length_append, List.length_singleton] at hlen hcap
  have hlen' : (bs ++ [x]).length = ((bs ++ [x]).getD 2 0#8).toNat + 4 := by
    rw [hget x (by decide), List.length_append, List.length_singleton, hlen]
  refine ⟨⟨(hget x (by decide)).trans hmarker, ?_, hlen'.le⟩, hlen', fun hx => hne (eq_of_sum8_eq_zero hx hzero)⟩
  rw [List.length_append, List.length_singleton]
  exact hcap

end Sys2Proof.Machine

open Sys2Proof Sys2Proof.Machine

/-- Settles O37: the bytes before the last are appended, and the last completes the frame. -/
theorem aFedFrameIsEmittedOnce : Obligations.AFedFrameIsEmittedOnce := by
  intro s c xs rest hs hc hl hq hvalid hgap
  have hstart := Received.start hs hl hq
  refine ⟨fun k hpos hk => ?_, run_valid_frame hc hstart hgap hvalid⟩
  obtain ⟨t, hrun, -, hev⟩ := run_received hc hvalid.marker hgap hvalid.candidate hstart hk
  exact ⟨t, hrun, hev hpos⟩

/-- Settles O38: the corrupted frame is discarded at its last byte, which leaves the channel empty for the valid one. -/
theorem aCorruptFrameThenAValidOne : Obligations.ACorruptFrameThenAValidOne := by
  intro s c xs ys bs x y rest hs hc hl hq hvalid hne hxs hys hgap hgap'
  obtain ⟨hcand, hlen, hsum⟩ := hvalid.corrupted hne
  rw [← hxs] at hcand hlen hsum
  rw [feedsOf, List.map_append, List.append_assoc] at hq
  have h4 : 4 ≤ xs.length := by
    rw [List.length_map] at hlen
    omega
  obtain ⟨t, hrun, ht, hcfg, htimeout, hqueue, hev, hempty, hout⟩ :=
    run_bad_frame hc (Received.start hs hl hq) hgap hcand h4 (by simpa using hlen) hsum
  obtain ⟨hframe, hovalid⟩ := frame_ovalid_of_output hout
  refine ⟨⟨t, hrun, hev, hempty, hframe, hovalid⟩, ?_⟩
  rw [← hcfg] at hc hys hgap'
  rw [← htimeout] at hgap'
  obtain ⟨u, hrun', hev', -, hframe', hempty', -⟩ := run_valid_frame hc (Received.start ht hempty hqueue) hgap' hys
  exact ⟨u, (run_add hrun _).trans hrun', hev', hframe', hempty'⟩

/-- Settles O39: a length byte above LMAX leaves the candidate incomplete at CAP bytes, where it is discarded. -/
theorem anOversizeCandidateOverflows : Obligations.AnOversizeCandidateOverflows := by
  intro s c xs rest hs hc hl hq hlength hmarker hover hgap
  have hcap := hs.cfg_ok.cap_ge
  rw [Config.lmax] at hover
  have hcand : Candidate s.cfg (xs.map Arrival.byte) :=
    ⟨hmarker, by rw [List.length_map, hlength], by rw [List.length_map]; omega⟩
  have hstart := Received.start hs hl hq
  refine ⟨fun k hpos hk => ?_, ?_⟩
  · obtain ⟨t, hrun, -, hev⟩ := run_received hc hmarker hgap hcand hstart (hlength ▸ hk)
    exact ⟨t, hrun, hev hpos⟩
  · obtain ⟨u, ch, hrun, hu, hch, hev⟩ := run_received_last hc hmarker hgap hcand hstart (by omega)
    have hincomplete : ¬ ch.complete = true := by
      rw [hu.complete_iff (Nat.le_refl _)]
      omega
    rw [Channel.settle_of_full hincomplete (hu.len.trans hlength)] at hch hev
    rw [hlength] at hrun
    obtain ⟨hframe, hovalid⟩ := frame_ovalid_of_output hu.output
    refine ⟨u, hrun, hev, ?_⟩
    rw [hch]
    exact ⟨rfl, hframe, hovalid⟩

end

section
/-!
The cache as a FIFO of pairs (spec/42_dedup.md R150 to R158): seenOrRecord against `fifoRecord`, a pair recorded twice, many pairs
recorded in turn, and the three statements that rest on them.
-/

namespace Sys2Proof.Machine

variable {s t : State} {c : ChanNo} {key : List Byte}

/-! ## One recording -/

theorem fifoRecord_of_mem {α : Type} [DecidableEq α] {n : Nat} {ps : List α} {p : α} (h : p ∈ ps) :
    fifoRecord n ps p = ps := if_pos h

theorem fifoRecord_of_lt {α : Type} [DecidableEq α] {n : Nat} {ps : List α} {p : α} (h : p ∉ ps) (hlt : ps.length < n) :
    fifoRecord n ps p = ps ++ [p] := (if_neg h).trans (if_pos hlt)

theorem fifoRecord_of_full {α : Type} [DecidableEq α] {n : Nat} {ps : List α} {p : α} (h : p ∉ ps) (hfull : ps.length = n) :
    fifoRecord n ps p = ps.drop 1 ++ [p] := (if_neg h).trans (if_neg hfull.not_lt)

/-- An index into the cache fits rdata. -/
theorem State.Inv.toNat_index (h : s.Inv) {i : Nat} (hi : i ≤ s.cfg.n) : (BitVec.ofNat 32 i).toNat = i := by
  have hn := h.cfg_ok.n_le
  rw [BitVec.toNat_ofNat]
  exact Nat.mod_eq_of_lt (by omega)

theorem State.Inv.pairs_length (h : s.Inv) : s.pairs.length = s.dcount := s.pairs_length h.dcount_le_length

/-- seenOrRecord acts on the pairs as on a FIFO; rdata is the pair's index, and EV_DUP tells whether it was present. -/
theorem State.Inv.seenOrRecord_fifo (h : s.Inv) (c : ChanNo) (key : List Byte) :
    (s.seenOrRecord c key).pairs = fifoRecord s.cfg.n s.pairs (c, key) ∧
    (s.seenOrRecord c key).pairs[(s.seenOrRecord c key).rdata.toNat]? = some (c, key) ∧
    ((s.seenOrRecord c key).ev = evDup ↔ (c, key) ∈ s.pairs) := by
  have hlen := h.pairs_length
  rcases h.seenOrRecord_cases c key with ⟨i, hi, hp, he, hpairs⟩ | ⟨hn, hlt, he, hpairs⟩ | ⟨hn, hfull, he, hpairs⟩ <;>
    rw [hpairs, he, State.respond_rdata, State.respond_ev]
  · have hm := List.mem_of_getElem? hp
    rw [fifoRecord_of_mem hm, h.toNat_index (hi.le.trans h.dcount_le)]
    exact ⟨rfl, hp, iff_of_true rfl hm⟩
  · rw [fifoRecord_of_lt hn (hlen ▸ hlt), h.toNat_index hlt.le, ← hlen, List.getElem?_concat_length]
    exact ⟨rfl, rfl, iff_of_false (by decide) hn⟩
  · have hlen' := hlen.trans hfull
    rw [fifoRecord_of_full hn hlen', h.toNat_index (Nat.sub_le _ _)]
    exact ⟨rfl, (getElem?_drop_one_append hlen' h.cfg_ok.n_pos _).2.2, iff_of_false (by decide) hn⟩

/-- A pair that is present is a duplicate at its index, and the cache keeps its pairs. -/
theorem State.Inv.seenOrRecord_again (h : s.Inv) {i : Nat} (hp : s.pairs[i]? = some (c, key)) :
    (s.seenOrRecord c key).ev = evDup ∧ (s.seenOrRecord c key).rdata = BitVec.ofNat 32 i ∧
    (s.seenOrRecord c key).pairs = s.pairs ∧ (s.seenOrRecord c key).dcount = s.dcount := by
  rw [h.seenOrRecord_of_present hp]
  exact ⟨rfl, rfl, s.refreshEntry_pairs i, rfl⟩

/-! ## Many recordings -/

/-- The pairs recorded in turn. -/
def State.recordAll (s : State) (ps : List (ChanNo × List Byte)) : State :=
  ps.foldl (fun u p => u.seenOrRecord p.1 p.2) s

theorem State.recordAll_concat (s : State) (ps : List (ChanNo × List Byte)) (p : ChanNo × List Byte) :
    s.recordAll (ps ++ [p]) = (s.recordAll ps).seenOrRecord p.1 p.2 := by
  rw [State.recordAll, List.foldl_append]
  rfl

/-- Pairs that are all new and fit the cache are kept, in order. -/
theorem State.Inv.recordAll (h : s.Inv) {ps : List (ChanNo × List Byte)} (hnodup : (s.pairs ++ ps).Nodup)
    (hfit : s.dcount + ps.length ≤ s.cfg.n) (hps : ∀ p ∈ ps, p.1.toNat < s.cfg.nch ∧ ValidFrame s.cfg p.2) :
    (s.recordAll ps).Inv ∧ (s.recordAll ps).cfg = s.cfg ∧ (s.recordAll ps).pairs = s.pairs ++ ps := by
  induction ps generalizing s with
  | nil => exact ⟨h, rfl, (List.append_nil _).symm⟩
  | cons p ps ih =>
    obtain ⟨hp, hps⟩ := List.forall_mem_cons.1 hps
    rw [List.length_cons] at hfit
    have hn : p ∉ s.pairs := fun hm => (List.nodup_append.1 hnodup).2.2 p hm p List.mem_cons_self rfl
    have hrec := h.seenOrRecord_of_absent_of_lt hn (by omega)
    have hinv := h.seenOrRecord hp.1 hp.2
    have hpairs : (s.seenOrRecord p.1 p.2).pairs = s.pairs ++ [p] := by
      rw [hrec]
      exact s.insertEntry_pairs p.1 p.2 (by rw [h.dent_length]; omega)
    have hdcount : (s.seenOrRecord p.1 p.2).dcount = s.dcount + 1 := by rw [hrec]; rfl
    have hcfg := s.seenOrRecord_cfg p.1 p.2
    obtain ⟨hinv', hcfg', hpairs'⟩ := ih hinv (by rw [hpairs, List.append_assoc]; exact hnodup)
      (by rw [hdcount, hcfg]; omega) (by rw [hcfg]; exact hps)
    refine ⟨hinv', hcfg'.trans hcfg, hpairs'.trans ?_⟩
    rw [hpairs, List.append_assoc]
    rfl

/-- One pair more than the cache holds evicts the first. -/
theorem State.Inv.recordAll_full (h : s.Inv) (h0 : s.dcount = 0) {ps : List (ChanNo × List Byte)}
    (hnodup : ps.Nodup) (hlen : ps.length = s.cfg.n + 1)
    (hps : ∀ p ∈ ps, p.1.toNat < s.cfg.nch ∧ ValidFrame s.cfg p.2) :
    (s.recordAll ps).Inv ∧ (s.recordAll ps).dcount = s.cfg.n ∧ (s.recordAll ps).pairs = ps.drop 1 ∧
      (s.recordAll ps).ev = evEvict := by
  have hempty : s.pairs = [] := List.eq_nil_of_length_eq_zero (h.pairs_length.trans h0)
  obtain rfl | ⟨qs, q, rfl⟩ := List.eq_nil_or_concat' ps
  · cases hlen
  · obtain ⟨hqs, hq⟩ := List.forall_mem_append.1 hps
    obtain ⟨hqc, hqv⟩ := List.forall_mem_singleton.1 hq
    have hlen' : qs.length = s.cfg.n := by simpa using hlen
    have hnew : q ∉ qs := fun hm => (List.nodup_append.1 hnodup).2.2 q hm q (List.mem_singleton.2 rfl) rfl
    obtain ⟨hinv, hcfg, hpairs⟩ := h.recordAll (ps := qs)
      (by rw [hempty]; exact (List.nodup_append.1 hnodup).1) (by omega) hqs
    rw [hempty, List.nil_append] at hpairs
    have hfull : (s.recordAll qs).dcount = (s.recordAll qs).cfg.n := by
      rw [← hinv.pairs_length, hpairs, hcfg, hlen']
    have habsent : q ∉ (s.recordAll qs).pairs := by rwa [hpairs]
    have hrec := hinv.seenOrRecord_of_absent_of_full habsent hfull
    have hdrop := (hinv.seenOrRecord_fifo q.1 q.2).1
    rw [hpairs, fifoRecord_of_full hnew (hlen'.trans (hcfg ▸ rfl)),
      ← List.drop_append_of_le_length (hlen' ▸ h.cfg_ok.n_pos)] at hdrop
    rw [State.recordAll_concat]
    refine ⟨hinv.seenOrRecord (hcfg ▸ hqc) (hcfg ▸ hqv), ?_, hdrop, ?_⟩
    · rw [hrec]
      exact hfull.trans (congrArg Config.n hcfg)
    · rw [hrec]
      rfl

end Sys2Proof.Machine

open Sys2Proof Sys2Proof.Machine

/-- Settles O44: DEDUP on a channel with a frame is seenOrRecord of that frame. -/
theorem dedupRefinesTheFifoOfPairs : Obligations.DedupRefinesTheFifoOfPairs := by
  intro s c hs hc hv
  obtain ⟨hpairs, hindex, hdup⟩ := hs.seenOrRecord_fifo c (s.chan c).frame
  exact ⟨_, exec_dedup_of_frame hc hv, hpairs, hindex, hdup, s.seenOrRecord_frame c _⟩

/-- Settles O45: the pair stands at the index that the first DEDUP answered, where the second finds it. -/
theorem dedupTwiceIsADuplicate : Obligations.DedupTwiceIsADuplicate := by
  intro s t c p hs hc hv h
  have ht := hs.exec h
  obtain ⟨hcfg, -, -⟩ := exec_keeps_ports h
  rw [exec_dedup_of_frame hc hv] at h
  cases h
  obtain ⟨-, hindex, -⟩ := hs.seenOrRecord_fifo c (s.chan c).frame
  have hchan := s.seenOrRecord_chan c (s.chan c).frame c
  generalize s.seenOrRecord c (s.chan c).frame = t at ht hcfg hindex hchan ⊢
  rw [← hchan] at hv hindex
  rw [← hcfg] at hc
  obtain ⟨hdup, hrdata, hpairs, hdcount⟩ := (ht.withPorts p t.ev t.rdata t.queue).seenOrRecord_again hindex
  rw [BitVec.ofNat_toNat, BitVec.setWidth_eq] at hrdata
  exact ⟨_, exec_dedup_of_frame (s := { t with inp := p }) hc hv, hdup, hrdata, hpairs, hdcount⟩

/-- Settles O46: the pairs recorded fill the cache, and the last evicts the first. -/
theorem theCacheKeepsTheNewestPairs : Obligations.TheCacheKeepsTheNewestPairs := by
  refine ⟨fun s c hc hv => exec_dedup_of_frame hc hv, fun s ps hs h0 hnodup hlen hps => ?_⟩
  obtain ⟨hinv, hdcount, hpairs, hev⟩ := hs.recordAll_full h0 hnodup hlen hps
  refine ⟨hdcount, hpairs, hev, fun p hp => ?_⟩
  obtain ⟨i, hi⟩ := List.mem_iff_getElem?.1 hp
  obtain ⟨hdup, -, hpairs', hdcount'⟩ := hinv.seenOrRecord_again (hpairs ▸ hi)
  exact ⟨hpairs', hdcount'.trans hdcount, hdup⟩

end
